-- ==== Sys2Proof/Word.lean ====
section
/-! DEFINITION. The widths of BAC91 (00_scope.md R5, R6). -/

namespace Sys2Proof

/-- A byte, a character code (`SYM_W` = 8) or an `imm8` operand (00_scope.md R5, R6). -/
abbrev Byte := BitVec 8

/-- A command word, `CMD_W` = 12 bits (00_scope.md R5, 30_encoding.md R80). -/
abbrev CmdWord := BitVec 12

/-- The accumulator, `ACC_W` = 24 bits (00_scope.md R5, 10_state.md R21). -/
abbrev AccWord := BitVec 24

/-- The valid-bit count, `N_W` = 5 bits (00_scope.md R5, 10_state.md R22). -/
abbrev CountWord := BitVec 5

/-- The pending first value of a pair, 7 bits (10_state.md R23). -/
abbrev HalfWord := BitVec 7

end Sys2Proof
end

