-- ==== Sys2Proof/Syntax.lean ====
section
/-! DEFINITION. The eleven commands (30_encoding.md R83), one constructor per row of the opcode
table; an argument is the row's `imm8` operand. -/

namespace Sys2Proof

/-- The commands of 30_encoding.md R83. -/
inductive Instr where
  /-- `NOP` (44_system.md R210). -/
  | nop
  /-- `ENC.START` (41_encoder.md R131). -/
  | encStart
  /-- `ENC.BYTE b` (41_encoder.md R132). -/
  | encByte (b : Byte)
  /-- `ENC.END` (41_encoder.md R136). -/
  | encEnd
  /-- `DEC.START` (42_decoder.md R161). -/
  | decStart
  /-- `DEC.SYM c` (42_decoder.md R162, R163). -/
  | decSym (c : Byte)
  /-- `DEC.END` (42_decoder.md R167). -/
  | decEnd
  /-- `OUT.RESET` (43_output_buffer.md R191). -/
  | outReset
  /-- `TAB.SYM v` (40_alphabet_table.md R116). -/
  | tabSym (v : Byte)
  /-- `TAB.VAL c` (40_alphabet_table.md R117). -/
  | tabVal (c : Byte)
  /-- `CLR` (44_system.md R211). -/
  | clr
  deriving DecidableEq, Repr

end Sys2Proof
end

