-- ==== Sys2Proof/WellFormed.lean ====
section
/-! DEFINITION. Well-formed commands. The one restriction on operands is that of `TAB.SYM`
(30_encoding.md R82, R84 case c). -/

namespace Sys2Proof

/-- A command some legal word spells (30_encoding.md R84): `TAB.SYM` takes a value 0..90; every
other operand is any byte. -/
def Instr.wellFormed (i : Instr) : Bool :=
  match i with
  | .tabSym v  => decide (v.toNat ≤ 90)
  | .nop       => true
  | .encStart  => true
  | .encByte _ => true
  | .encEnd    => true
  | .decStart  => true
  | .decSym _  => true
  | .decEnd    => true
  | .outReset  => true
  | .tabVal _  => true
  | .clr       => true

end Sys2Proof
end

