-- ==== Sys2Proof/Decode.lean ====
section
/-! DEFINITION. Decoding and encoding of command words (30_encoding.md R80, R83, R84). Decode is
total: every 12-bit word is one command or illegal for a named reason. -/

namespace Sys2Proof

/-- The three classes of illegal words (30_encoding.md R84). -/
inductive IllegalWord where
  /-- (a) `op` in 0xB..0xF. -/
  | reservedOpcode
  /-- (b) a command without operand whose `imm8` is not 0. -/
  | operandNotZero
  /-- (c) `TAB.SYM` with an operand above 90. -/
  | valueOutOfRange
  deriving DecidableEq, Repr

/-- What a word is: one command, or illegal. -/
inductive Decoded where
  | legal (i : Instr)
  | illegal (why : IllegalWord)
  deriving DecidableEq, Repr

/-- Field `op`, bits [11:8] (30_encoding.md R80). -/
def opField (w : CmdWord) : BitVec 4 := w.extractLsb' 8 4

/-- Field `imm8`, bits [7:0] (30_encoding.md R80). -/
def immField (w : CmdWord) : Byte := w.extractLsb' 0 8

/-- A command without operand: `imm8` must be 0 (30_encoding.md R80, R84 case b). -/
def noOperand (i : Instr) (imm : Byte) : Decoded :=
  if imm = 0 then .legal i else .illegal .operandNotZero

/-- The decoder (30_encoding.md R83, R84). -/
def decode (w : CmdWord) : Decoded :=
  match (opField w).toNat with
  | 0x0 => noOperand .nop (immField w)
  | 0x1 => noOperand .encStart (immField w)
  | 0x2 => .legal (.encByte (immField w))
  | 0x3 => noOperand .encEnd (immField w)
  | 0x4 => noOperand .decStart (immField w)
  | 0x5 => .legal (.decSym (immField w))
  | 0x6 => noOperand .decEnd (immField w)
  | 0x7 => noOperand .outReset (immField w)
  | 0x8 => if (immField w).toNat ≤ 90 then .legal (.tabSym (immField w)) else .illegal .valueOutOfRange
  | 0x9 => .legal (.tabVal (immField w))
  | 0xA => noOperand .clr (immField w)
  | _   => .illegal .reservedOpcode

/-- The `op` of each command (30_encoding.md R83). -/
def opcode (i : Instr) : BitVec 4 :=
  match i with
  | .nop       => 0x0
  | .encStart  => 0x1
  | .encByte _ => 0x2
  | .encEnd    => 0x3
  | .decStart  => 0x4
  | .decSym _  => 0x5
  | .decEnd    => 0x6
  | .outReset  => 0x7
  | .tabSym _  => 0x8
  | .tabVal _  => 0x9
  | .clr       => 0xA

/-- The `imm8` of each command, 0 where it has no operand (30_encoding.md R80). -/
def operand (i : Instr) : Byte :=
  match i with
  | .nop       => 0
  | .encStart  => 0
  | .encByte b => b
  | .encEnd    => 0
  | .decStart  => 0
  | .decSym c  => c
  | .decEnd    => 0
  | .outReset  => 0
  | .tabSym v  => v
  | .tabVal c  => c
  | .clr       => 0

/-- The word of a command, `{op, imm8}` (30_encoding.md R80, R83). -/
def encode (i : Instr) : CmdWord := opcode i ++ operand i

/-- The `match` and `mask` of each command's row (30_encoding.md R83). -/
def matchMask (i : Instr) : CmdWord × CmdWord :=
  match i with
  | .nop       => (0x000, 0xFFF)
  | .encStart  => (0x100, 0xFFF)
  | .encByte _ => (0x200, 0xF00)
  | .encEnd    => (0x300, 0xFFF)
  | .decStart  => (0x400, 0xFFF)
  | .decSym _  => (0x500, 0xF00)
  | .decEnd    => (0x600, 0xFFF)
  | .outReset  => (0x700, 0xFFF)
  | .tabSym _  => (0x800, 0xF00)
  | .tabVal _  => (0x900, 0xF00)
  | .clr       => (0xA00, 0xFFF)

/-- The instruction of a decoded word, if it is one. -/
def Decoded.instr? (d : Decoded) : Option Instr :=
  match d with
  | .legal i   => some i
  | .illegal _ => none

/-- The command word a table word of `nbits` bits stands for: its low `nbits` bits, if they fit the
12 bits of the port (a command is always exactly one word, 30_encoding.md R80; log entry 21). -/
def tableWord (nbits w : Nat) : Option CmdWord :=
  if w % 2 ^ nbits < 2 ^ 12 then some (BitVec.ofNat 12 (w % 2 ^ nbits)) else none

/-- What the decoder reads from a word numbered as the opcode table numbers it. -/
def decodeTableWord (nbits w : Nat) : Option Instr :=
  match tableWord nbits w with
  | some cw => (decode cw).instr?
  | none    => none

end Sys2Proof
end

