-- ==== Sys2Proof/Config.lean ====
section
/-! DEFINITION. The open parameters of one instance (00_scope.md R5, 92_eei_decisions.md D5, D13)
and the free values. `INSTANCES` is the length of a `Platform` (Machine/Platform.lean). -/

namespace Sys2Proof

/-- `ALPHABET` and `OUT_CAP` (00_scope.md R5). `outCap = none` is `unbounded`. No command and no
reset changes them (10_state.md R20); they stand in `State` because the step takes no other
argument (log entry 3). -/
structure Config where
  alphabet : Vector Byte 91
  outCap   : Option Nat
  deriving DecidableEq, Repr

/-- What 40_alphabet_table.md R115 requires of `ALPHABET`: pairwise distinct printable codes (91
entries is the type). -/
abbrev Config.wf (c : Config) : Prop :=
  c.alphabet.toList.Nodup ∧ ∀ x ∈ c.alphabet.toList, 0x20 ≤ x.toNat ∧ x.toNat ≤ 0x7E

/-- FREE VALUE: what a host read of `OUT[i]` returns when `i >= LEN` (20_memory.md R62), at the
given tick and index. Nothing is known of it (log entry 5). -/
opaque Config.unspecifiedOut : Nat → Nat → Byte

/-- FREE VALUE: `symbolOf v` for `v` outside 0..90 (40_alphabet_table.md R111: "not defined"). No
run from reset reaches it (41_encoder.md R141; log entry 7). -/
opaque Config.symbolOutside : Nat → Byte

end Sys2Proof
end

