-- ==== Sys2Proof/Machine/Parameters.lean ====
section
/-! DEFINITION. The default values of the parameters (00_scope.md R5) and the capacity test. -/

namespace Sys2Proof

/-- The codes of values 0..25, `A`..`Z` (40_alphabet_table.md R113). -/
def upperCodes : List Byte := (List.range 26).map fun i => BitVec.ofNat 8 (0x41 + i)

/-- The codes of values 26..51, `a`..`z` (40_alphabet_table.md R113). -/
def lowerCodes : List Byte := (List.range 26).map fun i => BitVec.ofNat 8 (0x61 + i)

/-- The codes of values 52..61, `0`..`9` (40_alphabet_table.md R113). -/
def digitCodes : List Byte := (List.range 10).map fun i => BitVec.ofNat 8 (0x30 + i)

/-- The codes of values 62..90 (40_alphabet_table.md R113). -/
def otherCodes : List Byte :=
  [0x21, 0x23, 0x24, 0x25, 0x26, 0x28, 0x29, 0x2A, 0x2B, 0x2C] ++
  [0x2E, 0x2F, 0x3A, 0x3B, 0x3C, 0x3D, 0x3E, 0x3F, 0x40, 0x5B] ++
  [0x5D, 0x5E, 0x5F, 0x60, 0x7B, 0x7C, 0x7D, 0x7E, 0x22]

/-- The default `ALPHABET`, the published basE91 table (40_alphabet_table.md R113, D5;
log entry 9). -/
def defaultAlphabet : Vector Byte 91 :=
  ⟨(upperCodes ++ lowerCodes ++ digitCodes ++ otherCodes).toArray, by decide⟩

/-- Both parameters at their defaults (00_scope.md R5). -/
def Config.default : Config where
  alphabet := defaultAlphabet
  outCap   := none

/-- `total <= OUT_CAP`; true when `OUT_CAP` is `unbounded` (10_state.md R30). -/
def Config.fits (c : Config) (total : Nat) : Bool :=
  match c.outCap with
  | none     => true
  | some cap => decide (total ≤ cap)

end Sys2Proof
end

