-- ==== Sys2Proof/Machine/State.lean ====
section
/-! DEFINITION. The state of one instance of BAC91 (10_state.md R20), its reset value (R37), and
the reasons a step can stop. -/

namespace Sys2Proof.Machine

/-- `MODE` (10_state.md R26). -/
inductive Mode where
  | idle
  | enc
  | dec
  | fault
  deriving DecidableEq, Repr

/-- The cause code in `ERR` (10_state.md R27, 60_exceptions.md R230); `none` is 0. -/
inductive ErrCode where
  | none
  | invalidSymbol
  | outOfMemory
  | illegalCommand
  | protocolError
  deriving DecidableEq, Repr

/-- The response to a command (30_encoding.md R81); its 12-bit word is `Response.word`. -/
inductive Response where
  /-- `status = 0` with its `data`. -/
  | ok (data : Byte)
  /-- `status` = the code of the fault this command raised. -/
  | fault (cause : ErrCode)
  /-- `status = 15`, `data` = the latched `ERR`. -/
  | refused (latched : ErrCode)
  deriving DecidableEq, Repr

/-- What the host can present: a command word (00_scope.md R9) or reset (70_reset_and_hazards.md
R270). -/
inductive HostEvent where
  | command (w : CmdWord)
  | reset
  deriving DecidableEq, Repr

/-- Bytes by address, addresses strictly rising; an unlisted address holds no value (20_memory.md
R50, R62; log entry 4). -/
abbrev Memory := List Host.Cell

/-- All the state 10_state.md R20 gives one instance, its two parameters, and four fields of the
model's own (`resp`, `input`, `tick`, `resets`). -/
structure State where
  /-- `ACC` (10_state.md R21). -/
  acc     : AccWord
  /-- `N` (10_state.md R22). -/
  n       : CountWord
  /-- `V1` (10_state.md R23). -/
  v1      : HalfWord
  /-- `HAVE1` (10_state.md R23). -/
  have1   : Bool
  /-- `MODE` (10_state.md R26). -/
  mode    : Mode
  /-- `ERR` (10_state.md R27). -/
  err     : ErrCode
  /-- `ERRINFO` (10_state.md R28). -/
  errinfo : CmdWord
  /-- `LEN` (10_state.md R30). -/
  len     : Nat
  /-- `OUT` (10_state.md R31). -/
  out     : Memory
  /-- `EPOCH`, ghost (10_state.md R32). -/
  epoch   : Nat
  /-- `ALPHABET` and `OUT_CAP` (00_scope.md R5); never changed (log entry 3). -/
  cfg     : Config
  /-- The response to the last command, none before the first (30_encoding.md R81; log entry 8). -/
  resp    : Option Response
  /-- What the host has presented and the block has not taken yet, oldest first (log entry 1). -/
  input   : List HostEvent
  /-- Counts steps, so that a free value of two steps need not be one value (log entry 6). -/
  tick    : Nat
  /-- Counts reset events, so that a view borrowed before one is not taken for a later one (log
  entry 14). -/
  resets  : Nat
  deriving DecidableEq, Repr

/-- Why a step stops. The spec's own four faults are next states (60_exceptions.md R238), not
these. -/
inductive Fault where
  /-- Raised by `step` when the host has presented nothing: without a command there is no step
  (00_scope.md R9). Safe: it says nothing of the hardware (log entry 1). -/
  | noCommand
  deriving DecidableEq, Repr

/-- Why an instruction has no meaning. -/
inductive Refusal where
  /-- Raised by an arm of `exec` whose instruction is not modelled yet. Safe. No arm does. -/
  | notModelled (mnemonic : String)
  deriving DecidableEq, Repr

/-- The state after reset (10_state.md R37), with the parameters at their defaults (00_scope.md R5)
and nothing presented. -/
def State.reset : State where
  acc     := 0
  n       := 0
  v1      := 0
  have1   := false
  mode    := .idle
  err     := .none
  errinfo := 0
  len     := 0
  out     := []
  epoch   := 0
  cfg     := Config.default
  resp    := none
  input   := []
  tick    := 0
  resets  := 0

end Sys2Proof.Machine
end

