-- ==== Sys2Proof/Machine/Flags.lean ====
section
/-! DEFINITION. The codes of the status fields, the response word (30_encoding.md R81) and `STATUS`
(10_state.md R33). The block has no arithmetic flags (R29). -/

namespace Sys2Proof.Machine

/-- The 2-bit code of `MODE` (10_state.md R26). -/
def Mode.code (m : Mode) : BitVec 2 :=
  match m with
  | .idle  => 0
  | .enc   => 1
  | .dec   => 2
  | .fault => 3

/-- The 3-bit code of `ERR` (10_state.md R27, 60_exceptions.md R230). -/
def ErrCode.code (e : ErrCode) : BitVec 3 :=
  match e with
  | .none           => 0
  | .invalidSymbol  => 1
  | .outOfMemory    => 2
  | .illegalCommand => 3
  | .protocolError  => 4

/-- The 12-bit response `{status, data}` (30_encoding.md R81). -/
def Response.word (r : Response) : BitVec 12 :=
  match r with
  | .ok data         => (0 : BitVec 4) ++ data
  | .fault cause     => cause.code.setWidth 4 ++ (0 : BitVec 8)
  | .refused latched => (15 : BitVec 4) ++ latched.code.setWidth 8

/-- `STATUS`: zero in [15:11], then `N`, `ERR`, `HAVE1`, `MODE` (10_state.md R33). -/
def State.statusWord (s : State) : BitVec 16 :=
  (0 : BitVec 5) ++ s.n ++ s.err.code ++ BitVec.ofBool s.have1 ++ s.mode.code

end Sys2Proof.Machine
end

