-- ==== Sys2Proof/Machine/Operands.lean ====
section
/-! DEFINITION. Operand forms: the widening of `imm8` (30_encoding.md R82) and the two table
lookups whose address is the operand itself (20_memory.md R53). -/

namespace Sys2Proof.Machine

/-- `zext_24` (00_scope.md R6, 30_encoding.md R82). -/
def zext24 {w : Nat} (x : BitVec w) : AccWord := x.setWidth 24

/-- `v[7:0]` of an accumulator value (00_scope.md R6). -/
def lowByte (a : AccWord) : Byte := a.setWidth 8

/-- `symbolOf(v) = ALPHABET[v]`, the content of address `v` of space `SYM` (40_alphabet_table.md
R111); a free value outside its domain. -/
def symbolOf (c : Config) (v : Nat) : Byte :=
  if h : v < 91 then c.alphabet[v] else Config.symbolOutside v

/-- `valueOf(c)`, the content of address `c` of space `VAL`: the `v` with `ALPHABET[v] = c`, or
`none` for `MISS` (40_alphabet_table.md R112). -/
def valueOf (c : Config) (code : Byte) : Option Nat :=
  c.alphabet.toList.findIdx? (fun x => x == code)

/-- The pair of values that spells a group value, low digit first (20_memory.md R55). -/
def pairOf (v : Nat) : List Nat := [v % 91, v / 91]

end Sys2Proof.Machine
end

