-- ==== Sys2Proof/Machine/Ops.lean ====
section
/-! DEFINITION. The operations the commands share: the output memory, `OutAppend`, responding,
raising a fault and being refused, legality by mode, the capacity check, reset. -/

namespace Sys2Proof.Machine

/-- The canonical form of a memory: addresses strictly rising. -/
abbrev Memory.wf (m : Memory) : Prop := m.Pairwise fun a b => a.1 < b.1

/-- The byte listed at an address; `none` where nothing has been stored (log entry 4). -/
def Memory.read (m : Memory) (a : Nat) : Option Byte :=
  match m with
  | []        => none
  | (x, b) :: rest => if x = a then some b else Memory.read rest a

/-- Store one byte, keeping the addresses strictly rising. -/
def Memory.write (m : Memory) (a : Nat) (b : Byte) : Memory :=
  match m with
  | [] => [(a, b)]
  | (x, c) :: rest =>
    if a < x then (a, b) :: (x, c) :: rest
    else if a = x then (a, b) :: rest
    else (x, c) :: Memory.write rest a b

/-- `OutAppend(byte)`: store at `LEN`, then increment `LEN` and `EPOCH` (20_memory.md R52). -/
def State.appendByte (b : Byte) (s : State) : State :=
  { s with out := s.out.write s.len b, len := s.len + 1, epoch := s.epoch + 1 }

/-- `OutAppend` of several bytes, first to last. -/
def State.appendAll (bs : List Byte) (s : State) : State :=
  match bs with
  | []        => s
  | b :: rest => State.appendAll rest (s.appendByte b)

/-- Give a response (30_encoding.md R81). -/
def State.respond (r : Response) (s : State) : State :=
  { s with resp := some r }

/-- `raise X(w)`: TAKING A FAULT (60_exceptions.md R238). Nothing else is written. -/
def State.raise (x : ErrCode) (w : CmdWord) (s : State) : State :=
  { s with err := x, errinfo := w, mode := .fault, resp := some (.fault x) }

/-- The answer to a word other than `CLR` in mode `FAULT` (60_exceptions.md R235). -/
def State.refuse (s : State) : State :=
  { s with resp := some (.refused s.err) }

/-- `ACC <- 0; N <- 0; HAVE1 <- 0; V1 <- 0` (41_encoder.md R131, 44_system.md R211). -/
def State.clearEngine (s : State) : State :=
  { s with acc := 0, n := 0, have1 := false, v1 := 0 }

/-- THE RETURN from a fault (60_exceptions.md R242, 44_system.md R211): nothing is restored; the
engine and the fault record are cleared and the mode is `IDLE`. -/
def State.leaveFault (s : State) : State :=
  { s.clearEngine with err := .none, errinfo := 0, mode := .idle }

/-- Reset (70_reset_and_hazards.md R270): every piece of state at its value of 10_state.md R37. The
parameters stay (R20), and so do the events after this one and the tick; the model's count of resets
goes up (log entries 2, 14). -/
def State.hardReset (s : State) : State :=
  { State.reset with
    cfg := s.cfg, input := s.input, tick := s.tick, resets := s.resets + 1 }

/-- An append of `k` bytes has room: `LEN + k <= OUT_CAP`; `k = 0` always has (60_exceptions.md
R232; log entry 11). -/
def State.hasRoom (s : State) (k : Nat) : Bool :=
  decide (k = 0) || s.cfg.fits (s.len + k)

/-- What a command does in a mode (30_encoding.md R88): `x`, `P` or `R`. -/
inductive Verdict where
  | executes
  | protocolError
  | refused
  deriving DecidableEq, Repr

/-- One row of 30_encoding.md R88. -/
def legalityRow (idle enc dec fault : Verdict) (m : Mode) : Verdict :=
  match m with
  | .idle  => idle
  | .enc   => enc
  | .dec   => dec
  | .fault => fault

/-- The matrix of 30_encoding.md R88. -/
def legality (i : Instr) (m : Mode) : Verdict :=
  match i with
  | .nop       => legalityRow .executes      .executes      .executes      .refused  m
  | .encStart  => legalityRow .executes      .protocolError .protocolError .refused  m
  | .encByte _ => legalityRow .protocolError .executes      .protocolError .refused  m
  | .encEnd    => legalityRow .protocolError .executes      .protocolError .refused  m
  | .decStart  => legalityRow .executes      .protocolError .protocolError .refused  m
  | .decSym _  => legalityRow .protocolError .protocolError .executes      .refused  m
  | .decEnd    => legalityRow .protocolError .protocolError .executes      .refused  m
  | .outReset  => legalityRow .executes      .protocolError .protocolError .refused  m
  | .tabSym _  => legalityRow .executes      .executes      .executes      .refused  m
  | .tabVal _  => legalityRow .executes      .executes      .executes      .refused  m
  | .clr       => legalityRow .executes      .protocolError .protocolError .executes m

/-- Lines 1 and 3 of 30_encoding.md R89 before a command's own effect. -/
def gate (i : Instr) (effect : State → State) (s : State) : Host.Outcome State Fault Refusal :=
  match legality i s.mode with
  | .executes      => .next (effect s)
  | .protocolError => .next (s.raise .protocolError (encode i))
  | .refused       => .next s.refuse

/-- Line 5 of 30_encoding.md R89, then the appends, the register updates and the response with the
number of bytes appended (30_encoding.md R81, 20_memory.md R59): all of it or none. -/
def emit (i : Instr) (bytes : List Byte) (update : State → State) (s : State) : State :=
  if s.hasRoom bytes.length then
    (update (s.appendAll bytes)).respond (.ok (BitVec.ofNat 8 bytes.length))
  else
    s.raise .outOfMemory (encode i)

/-- Lines 1 and 2 of 30_encoding.md R89 for an illegal word. -/
def State.illegalWord (w : CmdWord) (s : State) : State :=
  if s.mode = .fault then s.refuse else s.raise .illegalCommand w

end Sys2Proof.Machine
end

