-- ==== Sys2Proof/Machine/Decoder.lean ====
section
/-! DEFINITION. The Decoder Engine: `DEC.START`, `DEC.SYM`, `DEC.END` (42_decoder.md). -/

namespace Sys2Proof.Machine

/-- The width of the group a pair stands for (42_decoder.md R164). -/
def groupWidth (b : Nat) : Nat :=
  if b % 8192 > 88 then 13 else 14

/-- Step 4 of 42_decoder.md R163: `k` times take the low 8 bits as a byte and shift right by 8. -/
def drain (k : Nat) (a : AccWord) : List Byte × AccWord :=
  match k with
  | 0     => ([], a)
  | k + 1 => (lowByte a :: (drain k (a >>> 8)).1, (drain k (a >>> 8)).2)

/-- What one completed pair yields: the bytes to emit and the bits kept. -/
structure DecFeed where
  bytes : List Byte
  acc   : AccWord
  n     : CountWord
  deriving DecidableEq, Repr

/-- Steps 2 to 4 of 42_decoder.md R163 for the pair value `b`. The `while` runs `(N + g) div 8`
times and leaves `(N + g) mod 8` bits. -/
def decFeed (acc : AccWord) (n : CountWord) (b : Nat) : DecFeed :=
  let g := groupWidth b
  let d := drain ((n.toNat + g) / 8) (acc ||| (BitVec.ofNat 24 b <<< n.toNat))
  { bytes := d.1, acc := d.2, n := BitVec.ofNat 5 ((n.toNat + g) % 8) }

/-- The byte a lone final symbol completes, `(ACC | V1 << N)[7:0]` (42_decoder.md R167). -/
def loneByte (acc : AccWord) (n : CountWord) (v1 : HalfWord) : Byte :=
  lowByte (acc ||| (zext24 v1 <<< n.toNat))

/-- The effect of `DEC.START` (42_decoder.md R161). -/
def decStartEffect (s : State) : State :=
  { s.clearEngine with mode := .dec }.respond (.ok 0)

/-- `DEC.START` (42_decoder.md R161). -/
def execDecStart (s : State) : Host.Outcome State Fault Refusal := gate .decStart decStartEffect s

/-- First symbol of a pair (42_decoder.md R162). -/
def State.holdHalf (d : Nat) (s : State) : State :=
  { s with v1 := BitVec.ofNat 7 d, have1 := true }.respond (.ok 0)

/-- Second symbol of a pair (42_decoder.md R163). -/
def State.completePair (c : Byte) (d : Nat) (s : State) : State :=
  let f := decFeed s.acc s.n (s.v1.toNat + d * 91)
  emit (.decSym c) f.bytes (fun t => { t with acc := f.acc, n := f.n, have1 := false, v1 := 0 }) s

/-- The effect of `DEC.SYM c`: the table check comes before everything else (42_decoder.md R162,
R163, R169). -/
def decSymEffect (c : Byte) (s : State) : State :=
  match valueOf s.cfg c with
  | none   => s.raise .invalidSymbol (encode (.decSym c))
  | some d => if s.have1 then s.completePair c d else s.holdHalf d

/-- `DEC.SYM c` (42_decoder.md R162, R163, R169). -/
def execDecSym (c : Byte) (s : State) : Host.Outcome State Fault Refusal :=
  gate (.decSym c) (decSymEffect c) s

/-- The effect of `DEC.END` (42_decoder.md R167, R168). -/
def decEndEffect (s : State) : State :=
  emit .decEnd (if s.have1 then [loneByte s.acc s.n s.v1] else [])
    (fun t => { t.clearEngine with mode := .idle }) s

/-- `DEC.END` (42_decoder.md R167, R168). -/
def execDecEnd (s : State) : Host.Outcome State Fault Refusal := gate .decEnd decEndEffect s

end Sys2Proof.Machine
end

