-- ==== Sys2Proof/Machine/Encoder.lean ====
section
/-! DEFINITION. The Encoder Engine: `ENC.START`, `ENC.BYTE`, `ENC.END` (41_encoder.md). -/

namespace Sys2Proof.Machine

/-- `EncGroup(a) = (v, g)`: the group at the bottom of the accumulator and its width (41_encoder.md
R133). -/
def encGroup (a : AccWord) : Nat × Nat :=
  if a.toNat % 8192 > 88 then (a.toNat % 8192, 13) else (a.toNat % 16384, 14)

/-- What one input byte yields: the values to emit and the bits kept. -/
structure EncFeed where
  vals : List Nat
  acc  : AccWord
  n    : CountWord
  deriving DecidableEq, Repr

/-- Steps 1 and 2 of 41_encoder.md R132. The `while` runs at most once (R134; log entry 12). -/
def encFeed (acc : AccWord) (n : CountWord) (b : Byte) : EncFeed :=
  let a := acc ||| (zext24 b <<< n.toNat)
  if n.toNat + 8 > 13 then
    { vals := pairOf (encGroup a).1
      acc  := a >>> (encGroup a).2
      n    := BitVec.ofNat 5 (n.toNat + 8 - (encGroup a).2) }
  else
    { vals := [], acc := a, n := BitVec.ofNat 5 (n.toNat + 8) }

/-- The values the flush emits (41_encoder.md R136). -/
def flushVals (acc : AccWord) (n : CountWord) : List Nat :=
  if n.toNat = 0 then []
  else if n.toNat > 7 ∨ acc.toNat ≥ 91 then pairOf acc.toNat
  else [acc.toNat % 91]

/-- The effect of `ENC.START` (41_encoder.md R131). -/
def encStartEffect (s : State) : State :=
  { s.clearEngine with mode := .enc }.respond (.ok 0)

/-- `ENC.START` (41_encoder.md R131). -/
def execEncStart (s : State) : Host.Outcome State Fault Refusal := gate .encStart encStartEffect s

/-- The effect of `ENC.BYTE b` (41_encoder.md R132). -/
def encByteEffect (b : Byte) (s : State) : State :=
  let f := encFeed s.acc s.n b
  emit (.encByte b) (f.vals.map (symbolOf s.cfg)) (fun t => { t with acc := f.acc, n := f.n }) s

/-- `ENC.BYTE b` (41_encoder.md R132). -/
def execEncByte (b : Byte) (s : State) : Host.Outcome State Fault Refusal :=
  gate (.encByte b) (encByteEffect b) s

/-- The effect of `ENC.END` (41_encoder.md R136). -/
def encEndEffect (s : State) : State :=
  emit .encEnd ((flushVals s.acc s.n).map (symbolOf s.cfg))
    (fun t => { t with acc := 0, n := 0, mode := .idle }) s

/-- `ENC.END` (41_encoder.md R136). -/
def execEncEnd (s : State) : Host.Outcome State Fault Refusal := gate .encEnd encEndEffect s

end Sys2Proof.Machine
end

