-- ==== Sys2Proof/Machine/OutputBuffer.lean ====
section
/-! DEFINITION. `OUT.RESET` (43_output_buffer.md). -/

namespace Sys2Proof.Machine

/-- The effect of `OUT.RESET`: `LEN <- 0; EPOCH <- EPOCH + 1`; the bytes are not erased
(43_output_buffer.md R191). -/
def outResetEffect (s : State) : State :=
  { s with len := 0, epoch := s.epoch + 1 }.respond (.ok 0)

/-- `OUT.RESET` (43_output_buffer.md R191). -/
def execOutReset (s : State) : Host.Outcome State Fault Refusal := gate .outReset outResetEffect s

end Sys2Proof.Machine
end

