-- ==== Sys2Proof/Machine/System.lean ====
section
/-! DEFINITION. `NOP` and `CLR` (44_system.md). -/

namespace Sys2Proof.Machine

/-- The effect of `NOP`: a response and nothing else (44_system.md R210). -/
def nopEffect (s : State) : State := s.respond (.ok 0)

/-- `NOP` (44_system.md R210). -/
def execNop (s : State) : Host.Outcome State Fault Refusal := gate .nop nopEffect s

/-- The effect of `CLR` (44_system.md R211). -/
def clrEffect (s : State) : State := s.leaveFault.respond (.ok 0)

/-- `CLR` (44_system.md R211). -/
def execClr (s : State) : Host.Outcome State Fault Refusal := gate .clr clrEffect s

end Sys2Proof.Machine
end

