-- ==== Sys2Proof/Machine/Table.lean ====
section
/-! DEFINITION. The lookup commands `TAB.SYM` and `TAB.VAL` (40_alphabet_table.md). -/

namespace Sys2Proof.Machine

/-- The `data` of `TAB.VAL`: the value, or bit 7 alone for a miss (40_alphabet_table.md R117). -/
def lookupData (d : Option Nat) : Byte :=
  match d with
  | none   => 0x80
  | some v => BitVec.ofNat 8 v

/-- The effect of `TAB.SYM v`; an operand above 90 is an illegal word (40_alphabet_table.md R116,
30_encoding.md R84 case c; log entry 13). -/
def tabSymEffect (v : Byte) (s : State) : State :=
  if v.toNat ≤ 90 then s.respond (.ok (symbolOf s.cfg v.toNat))
  else s.raise .illegalCommand (encode (.tabSym v))

/-- `TAB.SYM v` (40_alphabet_table.md R116). -/
def execTabSym (v : Byte) (s : State) : Host.Outcome State Fault Refusal :=
  gate (.tabSym v) (tabSymEffect v) s

/-- The effect of `TAB.VAL c` (40_alphabet_table.md R117). -/
def tabValEffect (c : Byte) (s : State) : State :=
  s.respond (.ok (lookupData (valueOf s.cfg c)))

/-- `TAB.VAL c` (40_alphabet_table.md R117). -/
def execTabVal (c : Byte) (s : State) : Host.Outcome State Fault Refusal :=
  gate (.tabVal c) (tabValEffect c) s

end Sys2Proof.Machine
end

