-- ==== Sys2Proof/Machine/Dispatch.lean ====
section
/-! DEFINITION. One arm per command. -/

namespace Sys2Proof.Machine

def exec (i : Instr) (s : State) : Host.Outcome State Fault Refusal :=
  match i with
  | .nop => Sys2Proof.Machine.execNop s
  | .encStart => Sys2Proof.Machine.execEncStart s
  | .encByte b => Sys2Proof.Machine.execEncByte b s
  | .encEnd => Sys2Proof.Machine.execEncEnd s
  | .decStart => Sys2Proof.Machine.execDecStart s
  | .decSym c => Sys2Proof.Machine.execDecSym c s
  | .decEnd => Sys2Proof.Machine.execDecEnd s
  | .outReset => Sys2Proof.Machine.execOutReset s
  | .tabSym v => Sys2Proof.Machine.execTabSym v s
  | .tabVal c => Sys2Proof.Machine.execTabVal c s
  | .clr => Sys2Proof.Machine.execClr s

end Sys2Proof.Machine
end

