-- ==== Sys2Proof/Machine/Port.lean ====
section
/-! DEFINITION. The command port: one presented word (30_encoding.md R89), one event of the host. -/

namespace Sys2Proof.Machine

/-- One command word (30_encoding.md R89): an illegal word is refused or raises `IllegalCommand`,
every other runs. -/
def accept (w : CmdWord) (s : State) : Host.Outcome State Fault Refusal :=
  match decode w with
  | .legal i   => exec i s
  | .illegal _ => .next (s.illegalWord w)

/-- One event of the host. -/
def handle (e : HostEvent) (s : State) : Host.Outcome State Fault Refusal :=
  match e with
  | .command w => accept w s
  | .reset     => .next s.hardReset

/-- The block takes an event: it leaves the input, and the tick advances. -/
def State.take (rest : List HostEvent) (s : State) : State :=
  { s with input := rest, tick := s.tick + 1 }

/-- Place a table word as the next command of the host (log entry 15). A word that does not fit the
port cannot be presented: then nothing is. -/
def State.presentTableWord (nbits w : Nat) (s : State) : State :=
  match tableWord nbits w with
  | some cw => { s with input := .command cw :: s.input }
  | none    => { s with input := [] }

end Sys2Proof.Machine
end

