-- ==== Sys2Proof/Machine/Step.lean ====
section
/-! DEFINITION. One step of the block: the next event the host presented (00_scope.md R9). -/

namespace Sys2Proof.Machine

/-- One step (00_scope.md R9, 30_encoding.md R89). With nothing presented there is no step. -/
def step (s : State) : Host.Outcome State Fault Refusal :=
  match s.input with
  | []        => .fault .noCommand
  | e :: rest => handle e (s.take rest)

/-- `s` with a table word as the command the next step takes. -/
def State.withFetchWord (s : State) (nbits w : Nat) : State :=
  s.presentTableWord nbits w

end Sys2Proof.Machine
end

