-- ==== Sys2Proof/Machine/Loops.lean ====
section
/-! DEFINITION. The two `while` loops as their rules write them, with a bound on the passes. The
commands use shorter forms; that they agree is stated as a claim (41_encoder.md R134, 42_decoder.md
R166). -/

namespace Sys2Proof.Machine

/-- `while N > 13` of 41_encoder.md R132: the values emitted and what is left. -/
def encLoop (passes : Nat) (acc : AccWord) (n : Nat) : List Nat × AccWord × Nat :=
  match passes with
  | 0     => ([], acc, n)
  | p + 1 =>
    if n > 13 then
      if acc.toNat % 8192 > 88 then
        ([acc.toNat % 8192 % 91, acc.toNat % 8192 / 91] ++ (encLoop p (acc >>> 13) (n - 13)).1,
          (encLoop p (acc >>> 13) (n - 13)).2)
      else
        ([acc.toNat % 16384 % 91, acc.toNat % 16384 / 91] ++ (encLoop p (acc >>> 14) (n - 14)).1,
          (encLoop p (acc >>> 14) (n - 14)).2)
    else ([], acc, n)

/-- `while N >= 8` of 42_decoder.md R163: the bytes emitted and what is left. -/
def decLoop (passes : Nat) (acc : AccWord) (n : Nat) : List Byte × AccWord × Nat :=
  match passes with
  | 0     => ([], acc, n)
  | p + 1 =>
    if n ≥ 8 then
      (lowByte acc :: (decLoop p (acc >>> 8) (n - 8)).1, (decLoop p (acc >>> 8) (n - 8)).2)
    else ([], acc, n)

end Sys2Proof.Machine
end

