-- ==== Sys2Proof/Machine/Platform.lean ====
section
/-! DEFINITION. Several instances (60_exceptions.md R250): a list of states, its length `INSTANCES`.
Which instance steps next is the platform's choice, given as a schedule. -/

namespace Sys2Proof.Machine

/-- The instances of a platform. -/
abbrev Platform := List State

/-- `INSTANCES >= 1`, every instance with the same `ALPHABET` (60_exceptions.md R250, 00_scope.md
R5). -/
abbrev Platform.wf (p : Platform) : Prop :=
  1 ≤ p.length ∧ ∀ s ∈ p, ∀ t ∈ p, s.cfg.alphabet = t.cfg.alphabet

/-- One instance alone: its next state, or itself when its host has presented nothing. -/
def stepOrWait (s : State) : State :=
  match step s with
  | .next t    => t
  | .fault _   => s
  | .refused _ => s

/-- `k` steps of one instance alone. -/
def stepsAlone (k : Nat) (s : State) : State :=
  match k with
  | 0     => s
  | k + 1 => stepsAlone k (stepOrWait s)

/-- Instance `j` steps, the others do not. -/
def Platform.stepAt (p : Platform) (j : Nat) : Platform := p.modify j stepOrWait

/-- The instances a schedule names step, one after another. -/
def Platform.run (schedule : List Nat) (p : Platform) : Platform :=
  match schedule with
  | []        => p
  | j :: rest => Platform.run rest (p.stepAt j)

end Sys2Proof.Machine
end

