-- ==== Sys2Proof/Machine/Run.lean ====
section
/-! DEFINITION. Several steps of one instance, as `Host.Core.run` takes them. -/

namespace Sys2Proof.Machine

/-- `k` steps, stopping at the first that gives no next state (20_memory.md R63). -/
def runSteps (k : Nat) (s : State) : Host.Outcome State Fault Refusal :=
  match k with
  | 0     => .next s
  | k + 1 =>
    match step s with
    | .next t    => runSteps k t
    | .fault r   => .fault r
    | .refused r => .refused r

end Sys2Proof.Machine
end

