-- ==== Sys2Proof/Machine/Calls.lean ====
section
/-! DEFINITION. Calls as command sequences (30_encoding.md R92) and as functions (41_encoder.md
R139, 42_decoder.md R170). -/

namespace Sys2Proof.Machine

/-- Commands one after another, stopping at the first that gives no next state (20_memory.md R63).
-/
def execAll (cmds : List Instr) (s : State) : Host.Outcome State Fault Refusal :=
  match cmds with
  | []        => .next s
  | i :: rest =>
    match exec i s with
    | .next t    => execAll rest t
    | .fault r   => .fault r
    | .refused r => .refused r

/-- The operands the host takes from a region `R`: `R[o] .. R[o+L-1]`, ascending (20_memory.md R58).
DESIGN CHOICE (log entry 23): R58 does not speak of a slice that runs past the end of the region; no
operand is issued then. -/
def regionSlice (region : List Byte) (offset length : Nat) : Option (List Byte) :=
  if offset + length ≤ region.length then some ((region.drop offset).take length) else none

/-- `ENCODE b0 .. bL-1` (30_encoding.md R92). -/
def encodeCall (bytes : List Byte) : List Instr :=
  .encStart :: (bytes.map .encByte ++ [.encEnd])

/-- `DECODE c0 .. cS-1` (30_encoding.md R92). -/
def decodeCall (codes : List Byte) : List Instr :=
  .decStart :: (codes.map .decSym ++ [.decEnd])

/-- `FRESH.ENCODE` (30_encoding.md R92). -/
def freshEncodeCall (bytes : List Byte) : List Instr := .outReset :: encodeCall bytes

/-- `FRESH.DECODE` (30_encoding.md R92). -/
def freshDecodeCall (codes : List Byte) : List Instr := .outReset :: decodeCall codes

/-- The bytes the rest of an encode call appends, from the bits held (41_encoder.md R132, R136). -/
def encodeFrom (c : Config) (acc : AccWord) (n : CountWord) (bytes : List Byte) : List Byte :=
  match bytes with
  | []        => (flushVals acc n).map (symbolOf c)
  | b :: rest =>
    (encFeed acc n b).vals.map (symbolOf c) ++
      encodeFrom c (encFeed acc n b).acc (encFeed acc n b).n rest

/-- `Encode(x)` (41_encoder.md R139). -/
def encodeBytes (c : Config) (bytes : List Byte) : List Byte := encodeFrom c 0 0 bytes

/-- The bytes the rest of a decode call appends, from the bits and the half held; `none` when a
character is not in the alphabet (42_decoder.md R162, R163, R167, R170). -/
def decodeFrom (c : Config) (acc : AccWord) (n : CountWord) (half : Option Nat) (codes : List Byte) :
    Option (List Byte) :=
  match codes with
  | [] =>
    match half with
    | none   => some []
    | some v => some [loneByte acc n (BitVec.ofNat 7 v)]
  | x :: rest =>
    match valueOf c x, half with
    | none, _        => none
    | some d, none   => decodeFrom c acc n (some d) rest
    | some d, some v =>
      (decodeFrom c (decFeed acc n (v + d * 91)).acc (decFeed acc n (v + d * 91)).n none rest).map
        ((decFeed acc n (v + d * 91)).bytes ++ ·)

/-- `Decode(s)`, not defined when some character is not in the alphabet (42_decoder.md R170). -/
def decodeBytes (c : Config) (codes : List Byte) : Option (List Byte) := decodeFrom c 0 0 none codes

end Sys2Proof.Machine
end

