-- ==== Sys2Proof/Machine/HostPort.lean ====
section
/-! DEFINITION. The host's read port (10_state.md R34), owned copies and borrowed views
(43_output_buffer.md R193, R194). Reads are functions of the state between two steps: they change
nothing (20_memory.md R60, R65). -/

namespace Sys2Proof.Machine

/-- Space `HOSTREG`: 0 `STATUS`, 1 `ERRINFO`, 2 `LEN`, any other address 0 (10_state.md R34). -/
def State.hostReg (a : Nat) (s : State) : Nat :=
  match a with
  | 0 => s.statusWord.toNat
  | 1 => s.errinfo.toNat
  | 2 => s.len
  | _ => 0

/-- Space `OUT`: `OUT[i]` when `i < LEN`, otherwise a free value (10_state.md R34, 20_memory.md R62;
log entry 5). -/
def State.hostOut (s : State) (i : Nat) : Byte :=
  match (if i < s.len then s.out.read i else none) with
  | some b => b
  | none   => Config.unspecifiedOut s.tick i

/-- `toOwnedCopy()`: the bytes `OUT[0] .. OUT[LEN-1]` (43_output_buffer.md R193). -/
def State.ownedCopy (s : State) : List Byte := (List.range s.len).map s.hostOut

/-- A borrowed view, the record `(EPOCH, LEN)` at borrowing (43_output_buffer.md R194), with the count
of resets so far: reset takes `EPOCH` back to 0 (log entry 14). -/
structure View where
  resets : Nat
  epoch  : Nat
  len    : Nat
  deriving DecidableEq, Repr

/-- `borrowInternal()` (43_output_buffer.md R194). -/
def State.borrow (s : State) : View := { resets := s.resets, epoch := s.epoch, len := s.len }

/-- A view is valid while `EPOCH` is still the one it was borrowed at (43_output_buffer.md R194,
70_reset_and_hazards.md R274), with no reset since (log entry 14). -/
def View.valid (v : View) (s : State) : Bool := decide (s.resets = v.resets ∧ s.epoch = v.epoch)

/-- The result of a read through a view. -/
inductive ViewRead where
  | value (b : Byte)
  /-- Outside the contract: an invalid view, or an index at or beyond the view's length. -/
  | refused
  deriving DecidableEq, Repr

/-- A read through a borrowed view (43_output_buffer.md R194; log entry 14). -/
def State.readView (v : View) (i : Nat) (s : State) : ViewRead :=
  if v.valid s ∧ i < v.len then .value (s.hostOut i) else .refused

end Sys2Proof.Machine
end

