-- ==== Sys2Proof/Safety.lean ====
section
/-! DEFINITION. What claims are stated in: the invariant of every reachable state (10_state.md R36),
the number of bytes a command would append, the data of an `OK` response. -/

namespace Sys2Proof.Machine

/-- 10_state.md R36, items 1 to 7, and the form of the output memory: canonical, a byte at every
index below `LEN`, none at or beyond `OUT_CAP` (20_memory.md R50). -/
structure State.Inv (s : State) : Prop where
  /-- Item 1: `ACC < 2^N`. -/
  accFits      : s.acc.toNat < 2 ^ s.n.toNat
  /-- Item 1: `N <= 13`. -/
  countBound   : s.n.toNat ≤ 13
  /-- Item 2. -/
  halfBound    : s.v1.toNat ≤ 90
  /-- Item 2. -/
  halfClear    : s.have1 = false → s.v1 = 0
  /-- Item 3. -/
  idleClear    : s.mode = .idle → s.acc = 0 ∧ s.n = 0 ∧ s.have1 = false ∧ s.v1 = 0
  /-- Item 4. -/
  encNoHalf    : s.mode = .enc → s.have1 = false ∧ s.v1 = 0
  /-- Item 5. -/
  decCount     : s.mode = .dec → s.n.toNat ≤ 7
  /-- Item 6. -/
  errMode      : s.err = .none ↔ s.mode ≠ .fault
  /-- Item 6. -/
  errinfoClear : s.err = .none → s.errinfo = 0
  /-- Item 7. -/
  lenFits      : s.cfg.fits s.len = true
  outCanonical : s.out.wf
  outHolds     : ∀ i < s.len, (s.out.read i).isSome = true
  outInSpace   : ∀ i, (s.out.read i).isSome = true → s.cfg.fits (i + 1) = true
  /-- What 40_alphabet_table.md R115 requires of the parameter. -/
  alphabetWf   : s.cfg.wf

/-- The bytes a command would append when it executes (30_encoding.md R89 line 5), by the command's
own rule (41_encoder.md R132, R136; 42_decoder.md R162, R163, R167). -/
def State.appendCount (i : Instr) (s : State) : Nat :=
  match i with
  | .encByte _ => if s.n.toNat + 8 > 13 then 2 else 0
  | .encEnd    => if s.n.toNat = 0 then 0 else if s.n.toNat > 7 ∨ s.acc.toNat ≥ 91 then 2 else 1
  | .decSym c  =>
    if s.have1 then
      (s.n.toNat + (if (s.v1.toNat + (valueOf s.cfg c).getD 0 * 91) % 8192 > 88 then 13 else 14)) / 8
    else 0
  | .decEnd    => if s.have1 then 1 else 0
  | .nop       => 0
  | .encStart  => 0
  | .decStart  => 0
  | .outReset  => 0
  | .tabSym _  => 0
  | .tabVal _  => 0
  | .clr       => 0

/-- The `data` of an `OK` response (30_encoding.md R81). -/
def State.okData (i : Instr) (s : State) : Byte :=
  match i with
  | .tabSym v  => symbolOf s.cfg v.toNat
  | .tabVal c  => match valueOf s.cfg c with
                  | none   => 0x80
                  | some d => BitVec.ofNat 8 d
  | .encByte b => BitVec.ofNat 8 (s.appendCount (.encByte b))
  | .encEnd    => BitVec.ofNat 8 (s.appendCount .encEnd)
  | .decSym c  => BitVec.ofNat 8 (s.appendCount (.decSym c))
  | .decEnd    => BitVec.ofNat 8 (s.appendCount .decEnd)
  | .nop       => 0
  | .encStart  => 0
  | .decStart  => 0
  | .outReset  => 0
  | .clr       => 0

/-- The outcome of `raise X(w)` at a state: exactly the four writes of 60_exceptions.md R238. -/
def FaultsWith (x : ErrCode) (w : CmdWord) (s : State) (o : Host.Outcome State Fault Refusal) : Prop :=
  o = .next { s with err := x, errinfo := w, mode := .fault, resp := some (.fault x) }

/-- The outcome of a word refused in mode `FAULT`: only the response, with the latched `ERR`
(60_exceptions.md R235). -/
def RefusedAt (s : State) (o : Host.Outcome State Fault Refusal) : Prop :=
  o = .next { s with resp := some (.refused s.err) }

/-- The cells `P` of 30_encoding.md R88. -/
abbrev RaisesProtocolError (i : Instr) (m : Mode) : Prop :=
  ((i = .encStart ∨ i = .decStart ∨ i = .outReset ∨ i = .clr) ∧ (m = .enc ∨ m = .dec)) ∨
  (((∃ b, i = .encByte b) ∨ i = .encEnd) ∧ (m = .idle ∨ m = .dec)) ∨
  (((∃ c, i = .decSym c) ∨ i = .decEnd) ∧ (m = .idle ∨ m = .enc))

/-- A command outside the modes it is legal in: `ProtocolError`, or refused in mode `FAULT`
(30_encoding.md R88). -/
def StopsOutside (modes : List Mode) (i : Instr) : Prop :=
  ∀ s : State, s.mode ∉ modes →
    (s.mode ≠ .fault → FaultsWith .protocolError (encode i) s (exec i s)) ∧
    (s.mode = .fault → RefusedAt s (exec i s))

/-- The encoding of a command without operand: its word, and what its opcode with another `imm8`
does (30_encoding.md R83, R84 case b). -/
def BareWord (i : Instr) (w : CmdWord) : Prop :=
  encode i = w ∧ decode w = .legal i ∧
  ∀ (imm : Byte) (s : State), imm ≠ 0 →
    (s.mode ≠ .fault → FaultsWith .illegalCommand (opcode i ++ imm) s (accept (opcode i ++ imm) s)) ∧
    (s.mode = .fault → RefusedAt s (accept (opcode i ++ imm) s))

end Sys2Proof.Machine
end

