-- ==== Sys2Proof/Certificates/Slice0/Obligations.lean ====
section
/-! DEFINITION. The statements for the provers, from the numbered rules of spec/. A fault of the
block is a next state (`FaultsWith`), a refused word too (`RefusedAt`). -/

open Sys2Proof Sys2Proof.Machine

/-! ## Encoding -/

/-- 30_encoding.md R83: a word of each command, written from the map. -/
def Obligations.TabledWordsDecodeToTheirCommands : Prop :=
  decode 0x000 = .legal .nop ∧ decode 0x100 = .legal .encStart ∧
  decode 0x2A5 = .legal (.encByte 0xA5) ∧ decode 0x300 = .legal .encEnd ∧
  decode 0x400 = .legal .decStart ∧ decode 0x541 = .legal (.decSym 0x41) ∧
  decode 0x600 = .legal .decEnd ∧ decode 0x700 = .legal .outReset ∧
  decode 0x85A = .legal (.tabSym 90) ∧ decode 0x922 = .legal (.tabVal 0x22) ∧
  decode 0xA00 = .legal .clr ∧ decode 0x85B = .illegal .valueOutOfRange ∧
  decode 0x001 = .illegal .operandNotZero ∧ decode 0xB00 = .illegal .reservedOpcode

/-- Decode of encode, for every well-formed command and every operand. -/
def Obligations.DecodeOfEncodeIsTheCommand : Prop :=
  ∀ i : Instr, i.wellFormed = true → decode (encode i) = .legal i

/-- The other direction: a legal word is the word of the one command it decodes to, which is
well-formed. -/
def Obligations.LegalWordIsTheWordOfItsCommand : Prop :=
  ∀ (w : CmdWord) (i : Instr), decode w = .legal i → encode i = w ∧ i.wellFormed = true

/-- 30_encoding.md R83: `(w & mask) = match`, with `imm8 <= 90` for `TAB.SYM`, says which command a
word spells. -/
def Obligations.MatchAndMaskSayWhichCommandAWordSpells : Prop :=
  ∀ (w : CmdWord) (j : Instr),
    ((w &&& (matchMask j).2 = (matchMask j).1 ∧
        (∀ v, j = .tabSym v → (w.extractLsb' 0 8).toNat ≤ 90)) ↔
      ∃ i, decode w = .legal i ∧ opcode i = opcode j)

/-- 30_encoding.md R84: which words are illegal, how many are legal, and what an illegal word does.
-/
def Obligations.ReservedWordsAreIllegal : Prop :=
  (∀ w : CmdWord, (∃ why, decode w = .illegal why) ↔
    (0xB ≤ (w.extractLsb' 8 4).toNat ∨
     ((w.extractLsb' 8 4).toNat ∈ [0x0, 0x1, 0x3, 0x4, 0x6, 0x7, 0xA] ∧ w.extractLsb' 0 8 ≠ 0) ∨
     ((w.extractLsb' 8 4).toNat = 0x8 ∧ 90 < (w.extractLsb' 0 8).toNat))) ∧
  ((List.range 4096).filter fun k => (decode (BitVec.ofNat 12 k)).instr?.isSome).length = 866 ∧
  ∀ (w : CmdWord) (why : IllegalWord) (s : State), decode w = .illegal why →
    (s.mode ≠ .fault → FaultsWith .illegalCommand w s (accept w s)) ∧
    (s.mode = .fault → RefusedAt s (accept w s))

/-! ## The step -/

/-- A step takes the oldest presented event; a word that decodes runs its command. -/
def Obligations.StepRunsTheDecodedCommand : Prop :=
  ∀ (s : State) (w : CmdWord) (rest : List HostEvent) (i : Instr),
    s.input = .command w :: rest → decode w = .legal i →
    step s = exec i { s with input := rest, tick := s.tick + 1 }

/-- 30_encoding.md R89: the fixed order of the checks on a presented word, lines 1 to 6. `LEN <=
OUT_CAP` is 10_state.md R36 item 7. -/
def Obligations.StepChecksInTheFixedOrder : Prop :=
  ∀ (s u : State) (w : CmdWord) (rest : List HostEvent),
    s.input = .command w :: rest → s.cfg.fits s.len = true →
    u = { s with input := rest, tick := s.tick + 1 } →
    (u.mode = .fault ∧ w ≠ 0xA00 → RefusedAt u (step s)) ∧
    (¬ (u.mode = .fault ∧ w ≠ 0xA00) →
      (∀ why, decode w = .illegal why → FaultsWith .illegalCommand w u (step s)) ∧
      ∀ i, decode w = .legal i →
        (legality i u.mode = .protocolError → FaultsWith .protocolError w u (step s)) ∧
        (legality i u.mode ≠ .protocolError →
          ((∃ c, i = .decSym c ∧ valueOf u.cfg c = none) →
            FaultsWith .invalidSymbol w u (step s)) ∧
          ((∀ c, i = .decSym c → valueOf u.cfg c ≠ none) →
            (u.cfg.fits (u.len + u.appendCount i) = false →
              FaultsWith .outOfMemory w u (step s)) ∧
            (u.cfg.fits (u.len + u.appendCount i) = true →
              ∃ t, step s = .next t ∧ t.resp = some (.ok (u.okData i))))))

/-- 30_encoding.md R88: which command executes, raises `ProtocolError` or is refused in which mode,
and the row of the illegal words. -/
def Obligations.LegalityMatrixByMode : Prop :=
  (∀ (i : Instr) (s : State),
    (s.mode = .fault → i ≠ .clr → RefusedAt s (exec i s)) ∧
    (RaisesProtocolError i s.mode → FaultsWith .protocolError (encode i) s (exec i s)) ∧
    (¬ RaisesProtocolError i s.mode → (s.mode = .fault → i = .clr) →
      ∃ t, exec i s = .next t ∧ t.resp ≠ some (.fault .protocolError) ∧
        ∀ e, t.resp ≠ some (.refused e))) ∧
  ∀ (w : CmdWord) (why : IllegalWord) (s : State), decode w = .illegal why →
    (s.mode ≠ .fault → FaultsWith .illegalCommand w s (accept w s)) ∧
    (s.mode = .fault → RefusedAt s (accept w s))

/-- Running presented words is running their commands: the run of the machine and `execAll` agree
but for the input and the tick. -/
def Obligations.RunOfPresentedWordsIsTheCommandSequence : Prop :=
  ∀ (cmds : List Instr) (s t : State), (∀ i ∈ cmds, i.wellFormed = true) →
    execAll cmds s = .next t →
    runSteps cmds.length
        { s with input := cmds.map fun i => .command (encode i) } =
      .next { t with input := [], tick := s.tick + cmds.length }

/-! ## Faults -/

/-- 60_exceptions.md R238: a fault writes `ERR`, `ERRINFO`, `MODE` and the response, and nothing
else, whatever word raises it. -/
def Obligations.EveryFaultIsPrecise : Prop :=
  ∀ (w : CmdWord) (s t : State) (x : ErrCode),
    accept w s = .next t → t.resp = some (.fault x) → FaultsWith x w s (.next t)

/-- 60_exceptions.md R231: `InvalidSymbol` is raised by `DEC.SYM c` exactly when `valueOf(c)` is
`MISS`, for a first and for a second symbol alike. -/
def Obligations.InvalidSymbolExactlyOnAMiss : Prop :=
  ∀ (i : Instr) (s t : State), exec i s = .next t →
    (t.resp = some (.fault .invalidSymbol) ↔
      s.mode = .dec ∧ ∃ c, i = .decSym c ∧ valueOf s.cfg c = none)

/-- 60_exceptions.md R232: `OutOfMemory` is raised by a command that would append `k >= 1` bytes when
`LEN + k > OUT_CAP`, and by no other. -/
def Obligations.OutOfMemoryExactlyWhenTheAppendDoesNotFit : Prop :=
  ∀ (i : Instr) (s t : State), exec i s = .next t →
    (t.resp = some (.fault .outOfMemory) ↔
      legality i s.mode = .executes ∧ (∀ c, i = .decSym c → valueOf s.cfg c ≠ none) ∧
      1 ≤ s.appendCount i ∧ s.cfg.fits (s.len + s.appendCount i) = false)

/-- 60_exceptions.md R240: the first fault wins; words other than `CLR` change neither the record nor
the mode, however many are presented, and each is refused (R235). `input` and `tick` are the model's
own (log entries 1, 6). -/
def Obligations.FirstFaultIsKeptUntilClr : Prop :=
  ∀ (words : List CmdWord) (s : State), s.mode = .fault → (∀ w ∈ words, w ≠ 0xA00) →
    s.input = words.map .command →
    ∃ t, runSteps words.length s = .next t ∧
      t = { s with input := [], tick := s.tick + words.length,
                   resp := if words = [] then s.resp else some (.refused s.err) }

/-- 60_exceptions.md R242: the only ways out of mode `FAULT` are `CLR` and reset; `CLR` zeroes `ACC`,
`N`, `V1`, `HAVE1`, `ERR`, `ERRINFO` and enters `IDLE`. `input` and `tick` are the model's own (log
entries 1, 6). -/
def Obligations.OnlyClrAndResetLeaveFault : Prop :=
  ∀ s t : State, s.mode = .fault → step s = .next t → t.mode ≠ .fault →
    (∃ rest, s.input = .reset :: rest) ∨
    ∃ rest, s.input = .command 0xA00 :: rest ∧
      t = { s with acc := 0, n := 0, v1 := 0, have1 := false, err := .none, errinfo := 0,
                   mode := .idle, resp := some (.ok 0), input := rest, tick := s.tick + 1 }

/-- 10_state.md R26: the transitions of `MODE`, and no other. -/
def Obligations.ModeTransitions : Prop :=
  ∀ s t : State, step s = .next t →
    t.mode = s.mode ∨
    (t.mode = .fault ∧ ∃ x, t.resp = some (.fault x)) ∨
    (t.mode = .idle ∧ ∃ rest, s.input = .reset :: rest) ∨
    ∃ w rest i, s.input = .command w :: rest ∧ decode w = .legal i ∧
      ((i = .encStart ∧ s.mode = .idle ∧ t.mode = .enc) ∨
       (i = .encEnd ∧ s.mode = .enc ∧ t.mode = .idle) ∨
       (i = .decStart ∧ s.mode = .idle ∧ t.mode = .dec) ∨
       (i = .decEnd ∧ s.mode = .dec ∧ t.mode = .idle) ∨
       (i = .clr ∧ s.mode = .fault ∧ t.mode = .idle))

/-! ## Reset and the invariant -/

/-- 70_reset_and_hazards.md R270: reset puts every piece of state at its value of 10_state.md R37,
from any state; what the host reads of `OUT` is then the free value, and a view borrowed before is
invalid (log entries 2, 5 and 14). -/
def Obligations.ResetEventRestoresTheResetValues : Prop :=
  ∀ (s : State) (rest : List HostEvent), s.input = .reset :: rest →
    ∃ t, step s = .next t ∧ t.acc = 0 ∧ t.n = 0 ∧ t.v1 = 0 ∧ t.have1 = false ∧ t.mode = .idle ∧
      t.err = .none ∧ t.errinfo = 0 ∧ t.len = 0 ∧ t.epoch = 0 ∧ t.cfg = s.cfg ∧
      ∀ i, t.hostOut i = Config.unspecifiedOut t.tick i ∧
        ∀ u : State, u.resets ≤ s.resets → t.readView u.borrow i = .refused

/-- 10_state.md R36, R37: the invariant holds at reset. -/
def Obligations.ResetStateMeetsTheInvariant : Prop := State.reset.Inv

/-- 10_state.md R36 items 1 to 7: every step keeps the invariant, from every state that has it, for
every admissible `ALPHABET` and every `OUT_CAP`. -/
def Obligations.EveryStepKeepsTheInvariant : Prop :=
  ∀ s t : State, s.Inv → step s = .next t → t.Inv

/-- 10_state.md R36 item 8: `EPOCH` never decreases, and `LEN` and `OUT[0..LEN-1]` are unchanged
between two states with the same `EPOCH`. -/
def Obligations.SameEpochSameOutput : Prop :=
  ∀ (cmds : List Instr) (s t : State), execAll cmds s = .next t →
    s.epoch ≤ t.epoch ∧
    (t.epoch = s.epoch → t.len = s.len ∧ ∀ i < s.len, t.out.read i = s.out.read i)

/-! ## The read port -/

/-- 10_state.md R33: the fields of `STATUS`. -/
def Obligations.StatusWordFields : Prop :=
  ∀ s : State,
    s.statusWord.extractLsb' 0 2 = s.mode.code ∧
    (s.statusWord.getLsbD 2 = s.have1) ∧
    s.statusWord.extractLsb' 3 3 = s.err.code ∧
    s.statusWord.extractLsb' 6 5 = s.n ∧
    s.statusWord.extractLsb' 11 5 = 0 ∧
    Mode.idle.code = 0 ∧ Mode.enc.code = 1 ∧ Mode.dec.code = 2 ∧ Mode.fault.code = 3 ∧
    ErrCode.none.code = 0 ∧ ErrCode.invalidSymbol.code = 1 ∧ ErrCode.outOfMemory.code = 2 ∧
    ErrCode.illegalCommand.code = 3 ∧ ErrCode.protocolError.code = 4

/-- 10_state.md R34: the registers of `HOSTREG`, and `OUT[i]` below `LEN`; `ACC`, `V1` and `EPOCH`
are not readable. -/
def Obligations.ReadPortReturnsTheRegisters : Prop :=
  ∀ s : State,
    s.hostReg 0 = s.statusWord.toNat ∧ s.hostReg 1 = s.errinfo.toNat ∧ s.hostReg 2 = s.len ∧
    (∀ a, 3 ≤ a → s.hostReg a = 0) ∧
    (∀ i b, i < s.len → s.out.read i = some b → s.hostOut i = b) ∧
    ∀ (acc : AccWord) (v1 : HalfWord) (epoch a : Nat),
      ({ s with acc := acc, v1 := v1, epoch := epoch } : State).hostReg a = s.hostReg a ∧
      ({ s with acc := acc, v1 := v1, epoch := epoch } : State).hostOut a = s.hostOut a

/-- 30_encoding.md R81: the fields of the response word. -/
def Obligations.ResponseWordFields : Prop :=
  (∀ d : Byte, (Response.ok d).word.extractLsb' 8 4 = 0 ∧ (Response.ok d).word.extractLsb' 0 8 = d) ∧
  (∀ x : ErrCode, (Response.fault x).word.extractLsb' 8 4 = x.code.setWidth 4 ∧
    (Response.fault x).word.extractLsb' 0 8 = 0) ∧
  ∀ x : ErrCode, (Response.refused x).word.extractLsb' 8 4 = 15 ∧
    (Response.refused x).word.extractLsb' 0 8 = x.code.setWidth 8

/-- 43_output_buffer.md R194, 70_reset_and_hazards.md R274: through a view the host reads the bytes an
owned copy taken at borrowing would hold, while `EPOCH` is unchanged; afterwards the read is refused.
Said of every command sequence, and of every run of the machine: there illegal words may come between,
and a reset event, after which every read is refused whatever `EPOCH` has become (DEDUCED, log entry
14). -/
def Obligations.BorrowedViewReadsTheBorrowedBytes : Prop :=
  (∀ (cmds : List Instr) (s t : State) (i : Nat), s.Inv → execAll cmds s = .next t →
    (t.epoch = s.epoch → i < s.len →
      ∃ b, s.ownedCopy[i]? = some b ∧ t.readView s.borrow i = .value b) ∧
    (t.epoch ≠ s.epoch → t.readView s.borrow i = .refused)) ∧
  ∀ (k : Nat) (s t : State) (i : Nat), s.Inv → runSteps k s = .next t →
    (.reset ∈ s.input.take k → t.readView s.borrow i = .refused) ∧
    (.reset ∉ s.input.take k → t.epoch = s.epoch → i < s.len →
      ∃ b, s.ownedCopy[i]? = some b ∧ t.readView s.borrow i = .value b) ∧
    (t.epoch ≠ s.epoch → t.readView s.borrow i = .refused)

/-! ## System commands -/

/-- 44_system.md R210. -/
def Obligations.NopChangesNothing : Prop :=
  BareWord .nop 0x000 ∧ StopsOutside [.idle, .enc, .dec] .nop ∧
  ∀ s : State, s.mode ≠ .fault → exec .nop s = .next { s with resp := some (.ok 0) }

/-- 44_system.md R211. -/
def Obligations.ClrLeavesFaultAndKeepsTheBuffer : Prop :=
  BareWord .clr 0xA00 ∧ StopsOutside [.idle, .fault] .clr ∧
  ∀ s : State, s.mode = .fault ∨ s.mode = .idle →
    exec .clr s = .next { s with acc := 0, n := 0, have1 := false, v1 := 0, err := .none,
                                 errinfo := 0, mode := .idle, resp := some (.ok 0) }

/-! ## Output buffer -/

/-- 20_memory.md R52: `OutAppend` stores at `LEN`, adds 1 to `LEN` and `EPOCH`, and touches nothing
else. -/
def Obligations.OutAppendStoresOneByteAtLen : Prop :=
  ∀ (s : State) (b : Byte), s.out.wf →
    (s.appendByte b).out.read s.len = some b ∧
    (∀ a, a ≠ s.len → (s.appendByte b).out.read a = s.out.read a) ∧
    (s.appendByte b).out.wf ∧
    s.appendByte b =
      { s with out := (s.appendByte b).out, len := s.len + 1, epoch := s.epoch + 1 }

/-- 43_output_buffer.md R191. -/
def Obligations.OutResetSetsTheLengthToZero : Prop :=
  BareWord .outReset 0x700 ∧ StopsOutside [.idle] .outReset ∧
  ∀ s : State, s.mode = .idle →
    exec .outReset s = .next { s with len := 0, epoch := s.epoch + 1, resp := some (.ok 0) }

/-- FRAME OF MEMORY, every command: a command stores to the bytes `LEN .. LEN + k - 1` it appends
(20_memory.md R52, R59) and every other address reads as before; a fault or a refusal stores
nothing. -/
def Obligations.CommandsStoreOnlyTheBytesTheyAppend : Prop :=
  ∀ (i : Instr) (s t : State), exec i s = .next t →
    (∀ a, a < s.len ∨ s.len + s.appendCount i ≤ a → t.out.read a = s.out.read a) ∧
    ((∀ d, t.resp ≠ some (.ok d)) → ∀ a, t.out.read a = s.out.read a)

/-- FRAME OF REGISTERS: no command writes a register outside the list of its row in 10_state.md R20
(column "written by"; `OUT` has its own statement, `CommandsStoreOnlyTheBytesTheyAppend`), and none
changes the parameters, the input, the tick or the count of resets (the last three the model's own,
log entries 1, 6, 14). -/
def Obligations.CommandsWriteOnlyTheirRegisters : Prop :=
  ∀ (i : Instr) (s t : State), exec i s = .next t →
    t.cfg = s.cfg ∧ t.input = s.input ∧ t.tick = s.tick ∧ t.resets = s.resets ∧
    ((t.acc ≠ s.acc ∨ t.n ≠ s.n) → i = .encStart ∨ (∃ b, i = .encByte b) ∨ i = .encEnd ∨
      i = .decStart ∨ (∃ c, i = .decSym c) ∨ i = .decEnd ∨ i = .clr) ∧
    ((t.v1 ≠ s.v1 ∨ t.have1 ≠ s.have1) → i = .decStart ∨ (∃ c, i = .decSym c) ∨ i = .decEnd ∨
      i = .encStart ∨ i = .clr) ∧
    ((t.err ≠ s.err ∨ t.errinfo ≠ s.errinfo) → i = .clr ∨ ∃ x, t.resp = some (.fault x)) ∧
    (t.mode ≠ s.mode → i = .encStart ∨ i = .encEnd ∨ i = .decStart ∨ i = .decEnd ∨ i = .clr ∨
      ∃ x, t.resp = some (.fault x)) ∧
    (t.len ≠ s.len ∨ t.epoch ≠ s.epoch → i = .outReset ∨ (∃ b, i = .encByte b) ∨ i = .encEnd ∨
      (∃ c, i = .decSym c) ∨ i = .decEnd)

/-- 20_memory.md R59: how many bytes a command appends, and that `LEN` counts them when the response
is given; a fault appends none. -/
def Obligations.AppendsAreAllOrNothing : Prop :=
  ∀ (i : Instr) (s t : State), s.Inv → exec i s = .next t →
    ((∃ d, t.resp = some (.ok d)) → i ≠ .outReset → t.len = s.len + s.appendCount i) ∧
    ((∀ d, t.resp ≠ some (.ok d)) → t.len = s.len) ∧
    (legality i s.mode = .executes →
      ((∃ b, i = .encByte b) → s.appendCount i = 0 ∨ s.appendCount i = 2) ∧
      (i = .encEnd → s.appendCount i ≤ 2) ∧
      ((∃ c, i = .decSym c ∧ valueOf s.cfg c ≠ none) → s.appendCount i ≤ 2) ∧
      (i = .decEnd → s.appendCount i ≤ 1))

/-- 20_memory.md R61: whatever commands follow, other than `OUT.RESET`, the bytes below `LEN` keep
their values and `LEN` does not fall. -/
def Obligations.AppendedBytesNeverChange : Prop :=
  ∀ (cmds : List Instr) (s t : State), .outReset ∉ cmds → execAll cmds s = .next t →
    s.len ≤ t.len ∧ ∀ i < s.len, t.out.read i = s.out.read i

/-- 43_output_buffer.md R196: `OUT.RESET` and a complete call leave `LEN` and `OUT[0..LEN-1]` as the
same call leaves them from the reset state. -/
def Obligations.ReusedBufferGivesTheFreshResult : Prop :=
  (∀ (s : State) (x : List Byte), s.Inv → s.mode = .idle →
    s.cfg.fits (encodeBytes s.cfg x).length = true →
    ∃ t u, execAll (freshEncodeCall x) s = .next t ∧
      execAll (encodeCall x) { State.reset with cfg := s.cfg } = .next u ∧
      t.mode = .idle ∧ u.mode = .idle ∧ t.len = u.len ∧ t.ownedCopy = u.ownedCopy) ∧
  ∀ (s : State) (codes ys : List Byte), s.Inv → s.mode = .idle →
    decodeBytes s.cfg codes = some ys → s.cfg.fits ys.length = true →
    ∃ t u, execAll (freshDecodeCall codes) s = .next t ∧
      execAll (decodeCall codes) { State.reset with cfg := s.cfg } = .next u ∧
      t.mode = .idle ∧ u.mode = .idle ∧ t.len = u.len ∧ t.ownedCopy = u.ownedCopy

/-! ## Alphabet Table -/

/-- 40_alphabet_table.md R118: the two lookups are inverse, and exactly 91 of the 256 codes hit, for
every admissible `ALPHABET`. -/
def Obligations.TableLookupsAreInverse : Prop :=
  ∀ c : Config, c.wf →
    (∀ v, v ≤ 90 → valueOf c (symbolOf c v) = some v) ∧
    (∀ x v, valueOf c x = some v → symbolOf c v = x) ∧
    ((List.range 256).filter fun k => (valueOf c (BitVec.ofNat 8 k)).isSome).length = 91

/-- 40_alphabet_table.md R114: the hits of the default table (PRESUMED, log entry 9); it is
admissible (R115). -/
def Obligations.DefaultTableHits : Prop :=
  Config.default.wf ∧
  ∀ x : Byte, (valueOf Config.default x).isSome = true ↔
    0x21 ≤ x.toNat ∧ x.toNat ≤ 0x7E ∧ x ≠ 0x27 ∧ x ≠ 0x2D ∧ x ≠ 0x5C

/-- 40_alphabet_table.md R116: `TAB.SYM` in the modes it is legal in, and with an operand above 90. -/
def Obligations.TabSymRespondsWithTheSymbol : Prop :=
  (∀ v : Byte, encode (.tabSym v) = (0x8 : BitVec 4) ++ v) ∧
  (∀ v : Byte, StopsOutside [.idle, .enc, .dec] (.tabSym v)) ∧
  (∀ (v : Byte) (s : State), v.toNat ≤ 90 → s.mode ≠ .fault →
    exec (.tabSym v) s = .next { s with resp := some (.ok (symbolOf s.cfg v.toNat)) }) ∧
  ∀ (v : Byte) (s : State), 90 < v.toNat → s.mode ≠ .fault →
    FaultsWith .illegalCommand ((0x8 : BitVec 4) ++ v) s (accept ((0x8 : BitVec 4) ++ v) s)

/-- 40_alphabet_table.md R117. -/
def Obligations.TabValRespondsWithTheValueOrTheMissBit : Prop :=
  ∀ (c : Byte), encode (.tabVal c) = (0x9 : BitVec 4) ++ c ∧
    StopsOutside [.idle, .enc, .dec] (.tabVal c) ∧
    ∀ s : State, s.mode ≠ .fault →
      (valueOf s.cfg c = none → exec (.tabVal c) s = .next { s with resp := some (.ok 0x80) }) ∧
      ∀ d, valueOf s.cfg c = some d →
        d ≤ 90 ∧ exec (.tabVal c) s = .next { s with resp := some (.ok (BitVec.ofNat 8 d)) }

/-! ## Encoder -/

/-- 41_encoder.md R131. -/
def Obligations.EncStartClearsTheAccumulator : Prop :=
  BareWord .encStart 0x100 ∧ StopsOutside [.idle] .encStart ∧
  ∀ s : State, s.mode = .idle →
    exec .encStart s = .next { s with acc := 0, n := 0, have1 := false, v1 := 0, mode := .enc,
                                      resp := some (.ok 0) }

/-- 41_encoder.md R132: the byte goes in above the held bits; with more than 13 bits held one pair is
emitted, short when `ACC[12:0] > 88`, long otherwise; without room nothing happens but the fault. At
most 13 bits are held before (10_state.md R36 item 1; log entry 12). -/
def Obligations.EncByteFeedsOneByte : Prop :=
  ∀ b : Byte, encode (.encByte b) = (0x2 : BitVec 4) ++ b ∧ StopsOutside [.enc] (.encByte b) ∧
  ∀ (s : State) (a : AccWord), s.mode = .enc → s.n.toNat ≤ 13 →
    a = s.acc ||| (b.setWidth 24 <<< s.n.toNat) →
    (s.n.toNat + 8 ≤ 13 → exec (.encByte b) s = .next
      { s with acc := a, n := BitVec.ofNat 5 (s.n.toNat + 8), resp := some (.ok 0) }) ∧
    (s.n.toNat + 8 > 13 → s.cfg.fits (s.len + 2) = false →
      FaultsWith .outOfMemory ((0x2 : BitVec 4) ++ b) s (exec (.encByte b) s)) ∧
    (s.n.toNat + 8 > 13 → s.cfg.fits (s.len + 2) = true → 88 < (a.extractLsb' 0 13).toNat →
      exec (.encByte b) s = .next
        { s with
          acc := a >>> 13, n := BitVec.ofNat 5 (s.n.toNat + 8 - 13),
          out := (s.out.write s.len (symbolOf s.cfg ((a.extractLsb' 0 13).toNat % 91))).write
            (s.len + 1) (symbolOf s.cfg ((a.extractLsb' 0 13).toNat / 91)),
          len := s.len + 2, epoch := s.epoch + 2, resp := some (.ok 2) }) ∧
    (s.n.toNat + 8 > 13 → s.cfg.fits (s.len + 2) = true → (a.extractLsb' 0 13).toNat ≤ 88 →
      exec (.encByte b) s = .next
        { s with
          acc := a >>> 14, n := BitVec.ofNat 5 (s.n.toNat + 8 - 14),
          out := (s.out.write s.len (symbolOf s.cfg ((a.extractLsb' 0 14).toNat % 91))).write
            (s.len + 1) (symbolOf s.cfg ((a.extractLsb' 0 14).toNat / 91)),
          len := s.len + 2, epoch := s.epoch + 2, resp := some (.ok 2) })

/-- 41_encoder.md R136: the flush emits nothing, one or two symbols and ends the call. -/
def Obligations.EncEndFlushesTheRemainingBits : Prop :=
  BareWord .encEnd 0x300 ∧ StopsOutside [.enc] .encEnd ∧
  ∀ s : State, s.mode = .enc →
    (s.n = 0 → exec .encEnd s = .next
      { s with acc := 0, n := 0, mode := .idle, resp := some (.ok 0) }) ∧
    (s.n ≠ 0 → (s.n.toNat > 7 ∨ s.acc.toNat ≥ 91) →
      (s.cfg.fits (s.len + 2) = false → FaultsWith .outOfMemory 0x300 s (exec .encEnd s)) ∧
      (s.cfg.fits (s.len + 2) = true → exec .encEnd s = .next
        { s with
          acc := 0, n := 0, mode := .idle,
          out := (s.out.write s.len (symbolOf s.cfg (s.acc.toNat % 91))).write
            (s.len + 1) (symbolOf s.cfg (s.acc.toNat / 91)),
          len := s.len + 2, epoch := s.epoch + 2, resp := some (.ok 2) })) ∧
    (s.n ≠ 0 → s.n.toNat ≤ 7 → s.acc.toNat < 91 →
      (s.cfg.fits (s.len + 1) = false → FaultsWith .outOfMemory 0x300 s (exec .encEnd s)) ∧
      (s.cfg.fits (s.len + 1) = true → exec .encEnd s = .next
        { s with
          acc := 0, n := 0, mode := .idle,
          out := s.out.write s.len (symbolOf s.cfg (s.acc.toNat % 91)),
          len := s.len + 1, epoch := s.epoch + 1, resp := some (.ok 1) }))

/-- 41_encoder.md R133: `EncGroup`, and exactly the groups it can give. -/
def Obligations.EncGroupGivesExactlyTheGroups : Prop :=
  (∀ a : AccWord,
    (88 < (a.extractLsb' 0 13).toNat → encGroup a = ((a.extractLsb' 0 13).toNat, 13)) ∧
    ((a.extractLsb' 0 13).toNat ≤ 88 → encGroup a = ((a.extractLsb' 0 14).toNat, 14))) ∧
  ∀ v g : Nat, (∃ a : AccWord, encGroup a = (v, g)) ↔
    (g = 13 ∧ 89 ≤ v ∧ v ≤ 8191) ∨ (g = 14 ∧ (v ≤ 88 ∨ (8192 ≤ v ∧ v ≤ 8280)))

/-- 41_encoder.md R134: the `while` of `ENC.BYTE` runs at most once: with at most 13 bits held the
literal loop, given any number of passes, is the single pass the command makes, and at most 13 bits
are held after it. -/
def Obligations.EncoderLoopRunsAtMostOnce : Prop :=
  ∀ (acc : AccWord) (n : CountWord) (b : Byte) (passes : Nat), n.toNat ≤ 13 → 1 ≤ passes →
    encLoop passes (acc ||| (b.setWidth 24 <<< n.toNat)) (n.toNat + 8) =
      ((encFeed acc n b).vals, (encFeed acc n b).acc, (encFeed acc n b).n.toNat) ∧
    ((encFeed acc n b).vals.length = 0 ∨ (encFeed acc n b).vals.length = 2) ∧
    (encFeed acc n b).n.toNat ≤ 13

/-- 41_encoder.md R137: in the two-symbol flush the threshold logic always yields `v = ACC`. -/
def Obligations.FlushAgreesWithTheThresholdLogic : Prop :=
  ∀ s : State, s.Inv →
    encGroup s.acc = (s.acc.toNat, if 88 < s.acc.toNat then 13 else 14) ∧ s.acc.toNat / 91 ≤ 90

/-- 41_encoder.md R141: every group value is at most 8280, every value looked up is at most 90, and
`ACC` and `N` stay within 21 bits and 21. -/
def Obligations.SymbolLookupsStayInTheirDomain : Prop :=
  ∀ (s : State) (b : Byte), s.Inv →
    (∀ a : AccWord, (encGroup a).1 ≤ 8280) ∧
    (∀ v ∈ (encFeed s.acc s.n b).vals, v ≤ 90) ∧ (∀ v ∈ flushVals s.acc s.n, v ≤ 90) ∧
    (s.acc ||| (b.setWidth 24 <<< s.n.toNat)).toNat < 2 ^ (s.n.toNat + 8) ∧ s.n.toNat + 8 ≤ 21

/-- 41_encoder.md R139: a complete encode call appends `Encode(x)` to what the buffer held, which
depends on nothing but `x` and `ALPHABET`, and leaves mode `IDLE` with `ACC = 0`, `N = 0`. -/
def Obligations.EncodeCallAppendsItsEncoding : Prop :=
  (∀ (s : State) (x : List Byte), s.Inv → s.mode = .idle →
    s.cfg.fits (s.len + (encodeBytes s.cfg x).length) = true →
    ∃ t, execAll (encodeCall x) s = .next t ∧ t.mode = .idle ∧ t.acc = 0 ∧ t.n = 0 ∧
      t.err = .none ∧ t.ownedCopy = s.ownedCopy ++ encodeBytes s.cfg x) ∧
  ∀ (c d : Config) (x : List Byte), c.alphabet = d.alphabet → encodeBytes c x = encodeBytes d x

/-- 41_encoder.md R142: the bounds on the length of an encoding of `L` bytes. -/
def Obligations.EncodedLengthBounds : Prop :=
  ∀ (c : Config) (x : List Byte),
    (8 * x.length + 6) / 7 ≤ (encodeBytes c x).length ∧
    (encodeBytes c x).length ≤ (16 * x.length + 12) / 13

/-- 41_encoder.md R140: distinct inputs have distinct encodings, made of alphabet symbols only. -/
def Obligations.EncodingIsInjectiveAndInTheAlphabet : Prop :=
  ∀ c : Config, c.wf →
    (∀ x y : List Byte, encodeBytes c x = encodeBytes c y → x = y) ∧
    ∀ x : List Byte, ∀ b ∈ encodeBytes c x, b ∈ c.alphabet.toList

/-! ## Decoder -/

/-- 42_decoder.md R161. -/
def Obligations.DecStartClearsTheAccumulator : Prop :=
  BareWord .decStart 0x400 ∧ StopsOutside [.idle] .decStart ∧
  ∀ s : State, s.mode = .idle →
    exec .decStart s = .next { s with acc := 0, n := 0, have1 := false, v1 := 0, mode := .dec,
                                      resp := some (.ok 0) }

/-- 42_decoder.md R162: the first symbol of a pair is held. -/
def Obligations.DecSymHoldsTheFirstOfAPair : Prop :=
  ∀ c : Byte, encode (.decSym c) = (0x5 : BitVec 4) ++ c ∧ StopsOutside [.dec] (.decSym c) ∧
  ∀ s : State, s.mode = .dec → s.have1 = false →
    (valueOf s.cfg c = none → FaultsWith .invalidSymbol ((0x5 : BitVec 4) ++ c) s (exec (.decSym c) s)) ∧
    ∀ d, valueOf s.cfg c = some d → d ≤ 90 ∧ exec (.decSym c) s = .next
      { s with v1 := BitVec.ofNat 7 d, have1 := true, resp := some (.ok 0) }

/-- 42_decoder.md R163: the second symbol rebuilds the group, inserts it and emits the complete
bytes, one or two (10_state.md R36 item 5: at most 7 bits are held). -/
def Obligations.DecSymCompletesThePair : Prop :=
  ∀ c : Byte, encode (.decSym c) = (0x5 : BitVec 4) ++ c ∧ StopsOutside [.dec] (.decSym c) ∧
  ∀ s : State, s.mode = .dec → s.have1 = true → s.n.toNat ≤ 7 →
    (valueOf s.cfg c = none → FaultsWith .invalidSymbol ((0x5 : BitVec 4) ++ c) s (exec (.decSym c) s)) ∧
    ∀ (d b g : Nat) (a : AccWord), valueOf s.cfg c = some d →
      b = s.v1.toNat + d * 91 → g = (if 88 < b % 8192 then 13 else 14) →
      a = s.acc ||| (BitVec.ofNat 24 b <<< s.n.toNat) →
      (s.cfg.fits (s.len + (s.n.toNat + g) / 8) = false →
        FaultsWith .outOfMemory ((0x5 : BitVec 4) ++ c) s (exec (.decSym c) s)) ∧
      (s.n.toNat + g < 16 → s.cfg.fits (s.len + 1) = true → exec (.decSym c) s = .next
        { s with
          acc := a >>> 8, n := BitVec.ofNat 5 (s.n.toNat + g - 8), v1 := 0, have1 := false,
          out := s.out.write s.len (a.extractLsb' 0 8),
          len := s.len + 1, epoch := s.epoch + 1, resp := some (.ok 1) }) ∧
      (16 ≤ s.n.toNat + g → s.cfg.fits (s.len + 2) = true → exec (.decSym c) s = .next
        { s with
          acc := a >>> 16, n := BitVec.ofNat 5 (s.n.toNat + g - 16), v1 := 0, have1 := false,
          out := (s.out.write s.len (a.extractLsb' 0 8)).write (s.len + 1) (a.extractLsb' 8 8),
          len := s.len + 2, epoch := s.epoch + 2, resp := some (.ok 2) })

/-- 42_decoder.md R169: a miss faults at once, for a first and for a second symbol alike, and leaves
everything else as it was. -/
def Obligations.DecSymFaultsOnAMiss : Prop :=
  ∀ (c : Byte) (s : State), s.mode = .dec → valueOf s.cfg c = none →
    exec (.decSym c) s = .next { s with err := .invalidSymbol, errinfo := (0x5 : BitVec 4) ++ c, mode := .fault,
                                        resp := some (.fault .invalidSymbol) }

/-- 42_decoder.md R167, R168: a lone final symbol completes exactly one byte; leftover bits are
dropped. -/
def Obligations.DecEndFoldsInTheLoneSymbol : Prop :=
  BareWord .decEnd 0x600 ∧ StopsOutside [.dec] .decEnd ∧
  ∀ s : State, s.mode = .dec →
    (s.have1 = false → exec .decEnd s = .next
      { s with acc := 0, n := 0, v1 := 0, have1 := false, mode := .idle, resp := some (.ok 0) }) ∧
    (s.have1 = true → s.cfg.fits (s.len + 1) = false →
      FaultsWith .outOfMemory 0x600 s (exec .decEnd s)) ∧
    (s.have1 = true → s.cfg.fits (s.len + 1) = true → exec .decEnd s = .next
      { s with
        acc := 0, n := 0, v1 := 0, have1 := false, mode := .idle,
        out := s.out.write s.len
          ((s.acc ||| (s.v1.setWidth 24 <<< s.n.toNat)).extractLsb' 0 8),
        len := s.len + 1, epoch := s.epoch + 1, resp := some (.ok 1) })

/-- 42_decoder.md R164: the decoder's width of a pair is the encoder's width of the group it spells.
-/
def Obligations.DecoderMirrorsTheGroupWidth : Prop :=
  (∀ b : Nat, groupWidth b = if 88 < b % 8192 then 13 else 14) ∧
  ∀ a : AccWord, groupWidth (encGroup a).1 = (encGroup a).2

/-- 42_decoder.md R165: every pair of values is a well-formed group, and every group is one pair. -/
def Obligations.EveryPairIsAWellFormedGroup : Prop :=
  (∀ v1 d : Nat, v1 ≤ 90 → d ≤ 90 → v1 + 91 * d ≤ 8280 ∧
    v1 + 91 * d < 2 ^ groupWidth (v1 + 91 * d) ∧
    ∃ a : AccWord, encGroup a = (v1 + 91 * d, groupWidth (v1 + 91 * d))) ∧
  ∀ b : Nat, b ≤ 8280 → ∃ v1 d : Nat, (v1 ≤ 90 ∧ d ≤ 90 ∧ v1 + 91 * d = b) ∧
    ∀ v1' d' : Nat, v1' ≤ 90 → d' ≤ 90 → v1' + 91 * d' = b → v1' = v1 ∧ d' = d

/-- 42_decoder.md R166: the `while` of `DEC.SYM` runs once or twice: with at most 7 bits held the
literal loop, given two passes or more, is what the command does, and at most 7 bits are held after
it. -/
def Obligations.DecoderLoopRunsOnceOrTwice : Prop :=
  ∀ (acc : AccWord) (n : CountWord) (b passes : Nat), n.toNat ≤ 7 → 2 ≤ passes →
    decLoop passes (acc ||| (BitVec.ofNat 24 b <<< n.toNat)) (n.toNat + groupWidth b) =
      ((decFeed acc n b).bytes, (decFeed acc n b).acc, (decFeed acc n b).n.toNat) ∧
    ((decFeed acc n b).bytes.length = 1 ∨ (decFeed acc n b).bytes.length = 2) ∧
    (decFeed acc n b).n.toNat ≤ 7

/-- 42_decoder.md R170: a complete decode call of alphabet symbols appends `Decode(s)`. With another
character the call faults at the first such one, the bytes of the complete pairs before it appended
(60_exceptions.md R241); room for those is enough. -/
def Obligations.DecodeCallAppendsItsDecoding : Prop :=
  (∀ (s : State) (codes ys : List Byte), s.Inv → s.mode = .idle →
    decodeBytes s.cfg codes = some ys → s.cfg.fits (s.len + ys.length) = true →
    ∃ t, execAll (decodeCall codes) s = .next t ∧ t.mode = .idle ∧ t.err = .none ∧
      t.ownedCopy = s.ownedCopy ++ ys) ∧
  (∀ (s : State) (pre post ys : List Byte) (c : Byte), s.Inv → s.mode = .idle →
    (∀ x ∈ pre, valueOf s.cfg x ≠ none) → valueOf s.cfg c = none →
    decodeBytes s.cfg (pre.take (2 * (pre.length / 2))) = some ys →
    s.cfg.fits (s.len + ys.length) = true →
    ∃ t, execAll (decodeCall (pre ++ c :: post)) s = .next t ∧ t.mode = .fault ∧
      t.err = .invalidSymbol ∧ t.errinfo = (0x5 : BitVec 4) ++ c ∧
      t.ownedCopy = s.ownedCopy ++ ys) ∧
  (∀ c : Config, decodeBytes c [] = some []) ∧
  ∀ (c d : Config) (x : List Byte), c.alphabet = d.alphabet → decodeBytes c x = decodeBytes d x

/-- 42_decoder.md R171, the round trip: encoding any bytes and decoding the result returns them, with
no fault on the way, for every admissible `ALPHABET`. -/
def Obligations.DecodingAnEncodingReturnsTheInput : Prop :=
  (∀ (c : Config) (x : List Byte), c.wf → decodeBytes c (encodeBytes c x) = some x) ∧
  ∀ (s : State) (x : List Byte), s.Inv → s.mode = .idle →
    s.cfg.fits (encodeBytes s.cfg x).length = true →
    ∃ t u, execAll (freshEncodeCall x) s = .next t ∧ t.mode = .idle ∧
      execAll (freshDecodeCall t.ownedCopy) t = .next u ∧ u.mode = .idle ∧ u.err = .none ∧
      u.ownedCopy = x

/-- 42_decoder.md R175: the length of a decoding of `S` symbols, `P = S div 2`. -/
def Obligations.DecodedLengthBounds : Prop :=
  ∀ (c : Config) (codes ys : List Byte), decodeBytes c codes = some ys →
    (13 * (codes.length / 2)) / 8 + codes.length % 2 ≤ ys.length ∧
    ys.length ≤ (14 * (codes.length / 2)) / 8 + codes.length % 2

/-- 42_decoder.md R174: every sequence of alphabet symbols decodes, encoder-produced or not, and the
rule's examples under the default alphabet (PRESUMED, log entry 9), the first of which shows that two
streams can decode to the same bytes. -/
def Obligations.EveryAlphabetStreamDecodes : Prop :=
  (∀ (c : Config) (codes : List Byte),
    (decodeBytes c codes).isSome = true ↔ ∀ x ∈ codes, valueOf c x ≠ none) ∧
  decodeBytes Config.default [0x22, 0x22] = some [0x58] ∧
  encodeBytes Config.default [0x58] = [0x7D, 0x41] ∧
  decodeBytes Config.default [0x7D, 0x41] = some [0x58] ∧
  decodeBytes Config.default [0x42] = some [0x01] ∧
  encodeBytes Config.default [0x01] = [0x42, 0x41]

/-! ## Several instances -/

/-- 60_exceptions.md R250: any interleaving of the steps of the instances gives each instance the
results of running alone. A platform as a list of states, the schedule that picks who steps and the
instance that waits while nothing is presented are DEDUCED (log entry 17). -/
def Obligations.InstancesRunAsIfAlone : Prop :=
  ∀ (schedule : List Nat) (p : Platform) (j : Nat),
    (p.run schedule)[j]? = (p[j]?).map (stepsAlone (schedule.count j))
end

