-- ==== Sys2Proof/Laws/Calls.lean ====
section
/-! SUPPORT. The slice of a region the host issues, said by its entries. -/

namespace Sys2Proof.Machine

/-- A slice is taken exactly when it lies in the region (log entry 23). -/
theorem regionSlice_isSome (region : List Byte) (offset length : Nat) :
    (regionSlice region offset length).isSome = true ↔ offset + length ≤ region.length := by
  unfold regionSlice
  split <;> simp_all

/-- Operand `j` of a slice is `R[o+j]`, and there are as many as asked for (20_memory.md R58). -/
theorem regionSlice_entries {region slice : List Byte} {offset length : Nat}
    (h : regionSlice region offset length = some slice) :
    slice.length = length ∧ ∀ j < length, slice[j]? = region[offset + j]? := by
  unfold regionSlice at h
  split at h
  · injection h with h
    subst h
    refine ⟨by rw [List.length_take, List.length_drop]; omega, fun j hj => ?_⟩
    rw [List.getElem?_take_of_lt hj, List.getElem?_drop]
  · cases h

end Sys2Proof.Machine
end

