-- ==== Sys2Proof/Laws/PerInstr.lean ====
section
/-! SUPPORT. Facts about every command, one lemma per constructor. -/

namespace Sys2Proof.Laws.EncodedFields

/-- The two fields of a command's word are its opcode and its operand (30_encoding.md R80). -/
def Statement (i : Sys2Proof.Instr) : Prop :=
  Sys2Proof.opField (Sys2Proof.encode i) = Sys2Proof.opcode i ∧
    Sys2Proof.immField (Sys2Proof.encode i) = Sys2Proof.operand i

/-- The fields of a concatenation are its parts. -/
theorem of_append (op : BitVec 4) (imm : Sys2Proof.Byte) :
    Sys2Proof.opField (op ++ imm) = op ∧ Sys2Proof.immField (op ++ imm) = imm :=
  ⟨BitVec.extractLsb'_append_eq_left, BitVec.extractLsb'_append_eq_right⟩

theorem nop : Statement .nop := of_append _ _
theorem encStart : Statement .encStart := of_append _ _
theorem encByte (b : Sys2Proof.Byte) : Statement (.encByte b) := of_append _ _
theorem encEnd : Statement .encEnd := of_append _ _
theorem decStart : Statement .decStart := of_append _ _
theorem decSym (c : Sys2Proof.Byte) : Statement (.decSym c) := of_append _ _
theorem decEnd : Statement .decEnd := of_append _ _
theorem outReset : Statement .outReset := of_append _ _
theorem tabSym (v : Sys2Proof.Byte) : Statement (.tabSym v) := of_append _ _
theorem tabVal (c : Sys2Proof.Byte) : Statement (.tabVal c) := of_append _ _
theorem clr : Statement .clr := of_append _ _

end Sys2Proof.Laws.EncodedFields
end

