-- ==== Sys2Proof/Laws/Decode.lean ====
section
/-! SUPPORT. A word is its two fields; decoding said by fields. -/

namespace Sys2Proof

/-- The fields of a word put together are the word (30_encoding.md R80). -/
theorem fields_append (w : CmdWord) : opField w ++ immField w = w := by
  unfold opField immField
  rw [BitVec.extractLsb'_append_extractLsb'_eq_extractLsb' (by rfl)]
  simp

/-- Decoding a word given by its fields (30_encoding.md R83). -/
theorem decode_append (op : BitVec 4) (imm : Byte) : decode (op ++ imm) =
    match op.toNat with
    | 0x0 => noOperand .nop imm
    | 0x1 => noOperand .encStart imm
    | 0x2 => .legal (.encByte imm)
    | 0x3 => noOperand .encEnd imm
    | 0x4 => noOperand .decStart imm
    | 0x5 => .legal (.decSym imm)
    | 0x6 => noOperand .decEnd imm
    | 0x7 => noOperand .outReset imm
    | 0x8 => if imm.toNat ≤ 90 then .legal (.tabSym imm) else .illegal .valueOutOfRange
    | 0x9 => .legal (.tabVal imm)
    | 0xA => noOperand .clr imm
    | _   => .illegal .reservedOpcode := by
  obtain ⟨hop, himm⟩ := Laws.EncodedFields.of_append op imm
  unfold decode
  rw [hop, himm]
  all_goals rfl

theorem noOperand_eq_legal {i j : Instr} {imm : Byte} (h : noOperand i imm = .legal j) :
    i = j ∧ imm = 0 := by
  unfold noOperand at h
  split at h <;> simp_all

end Sys2Proof
end

