-- ==== Sys2Proof/Laws/Table.lean ====
section
/-! SUPPORT. The table lookups and the pair of values of a group. -/

namespace Sys2Proof.Machine

theorem symbolOf_of_lt (c : Config) {v : Nat} (h : v < 91) : symbolOf c v = c.alphabet[v] := by
  simp [symbolOf, h]

/-- A hit is a value 0..90. -/
theorem valueOf_lt {c : Config} {code : Byte} {v : Nat} (h : valueOf c code = some v) : v < 91 := by
  have := (List.findIdx?_eq_some_iff_getElem.1 h).1
  simpa using this

@[simp] theorem pairOf_length (v : Nat) : (pairOf v).length = 2 := rfl

theorem pairOf_le {v : Nat} (h : v ≤ 8280) : ∀ d ∈ pairOf v, d ≤ 90 := by
  intro d hd
  simp only [pairOf, List.mem_cons, List.not_mem_nil, or_false] at hd
  omega

end Sys2Proof.Machine
end

