-- ==== Sys2Proof/Laws/Engine.lean ====
section
/-! SUPPORT. The data paths of the two engines as arithmetic on natural numbers. -/

namespace Sys2Proof.Machine

/-- Inserting `x` above `n` held bits adds `x * 2^n` (20_memory.md R54, R56). -/
theorem insert_toNat (acc : AccWord) (n x w : Nat) (hacc : acc.toNat < 2 ^ n) (hx : x < 2 ^ w)
    (hw : n + w ≤ 24) :
    (acc ||| (BitVec.ofNat 24 x <<< n)).toNat = acc.toNat + x * 2 ^ n := by
  have hxn : x * 2 ^ n < 2 ^ 24 :=
    calc x * 2 ^ n < 2 ^ w * 2 ^ n := Nat.mul_lt_mul_of_pos_right hx (by positivity)
      _ = 2 ^ (n + w) := by rw [Nat.add_comm, Nat.pow_add]
      _ ≤ 2 ^ 24 := Nat.pow_le_pow_right (by decide) hw
  have hx24 : x < 2 ^ 24 := lt_of_le_of_lt (Nat.le_mul_of_pos_right x (by positivity)) hxn
  rw [BitVec.toNat_or, BitVec.toNat_shiftLeft, BitVec.toNat_ofNat, Nat.mod_eq_of_lt hx24,
    Nat.shiftLeft_eq, Nat.mod_eq_of_lt hxn, Nat.or_comm, ← Nat.shiftLeft_eq,
    ← Nat.shiftLeft_add_eq_or_of_lt hacc, Nat.shiftLeft_eq, Nat.add_comm]

/-- The byte of `ENC.BYTE` inserted above `n` held bits (41_encoder.md R132 step 1). -/
theorem insert_byte_toNat (acc : AccWord) (n : Nat) (b : Byte) (hacc : acc.toNat < 2 ^ n)
    (hn : n ≤ 13) :
    (acc ||| (zext24 b <<< n)).toNat = acc.toNat + b.toNat * 2 ^ n := by
  have hz : zext24 b = BitVec.ofNat 24 b.toNat := BitVec.eq_of_toNat_eq (by simp [zext24])
  rw [hz]
  exact insert_toNat acc n b.toNat 8 hacc b.isLt (by omega)

/-- A group's width is 13 or 14 (41_encoder.md R133). -/
theorem encGroup_width (a : AccWord) : (encGroup a).2 = 13 ∨ (encGroup a).2 = 14 := by
  unfold encGroup
  split <;> simp

/-- A group value is the low bits of the accumulator (41_encoder.md R133). -/
theorem encGroup_value (a : AccWord) : (encGroup a).1 = a.toNat % 2 ^ (encGroup a).2 := by
  unfold encGroup
  split <;> simp

theorem groupWidth_cases (b : Nat) : groupWidth b = 13 ∨ groupWidth b = 14 := by
  unfold groupWidth
  split <;> simp

@[simp] theorem drain_length (k : Nat) (a : AccWord) : (drain k a).1.length = k := by
  induction k generalizing a with
  | zero => rfl
  | succ k ih => simp [drain, ih]

@[simp] theorem drain_acc_toNat (k : Nat) (a : AccWord) :
    (drain k a).2.toNat = a.toNat / 2 ^ (8 * k) := by
  induction k generalizing a with
  | zero => simp [drain]
  | succ k ih =>
    rw [drain, ih, BitVec.toNat_ushiftRight, Nat.shiftRight_eq_div_pow, Nat.div_div_eq_div_mul,
      ← Nat.pow_add, Nat.mul_succ, Nat.add_comm]

/-- Byte `j` drained is bits `8j .. 8j+7` (20_memory.md R56). -/
theorem drain_getElem_toNat (k : Nat) (a : AccWord) (j : Nat) (h : j < (drain k a).1.length) :
    (drain k a).1[j].toNat = a.toNat / 2 ^ (8 * j) % 256 := by
  induction k generalizing a j with
  | zero => simp at h
  | succ k ih =>
    cases j with
    | zero => simp [drain, lowByte]
    | succ j =>
      simp only [drain, List.getElem_cons_succ]
      rw [ih, BitVec.toNat_ushiftRight, Nat.shiftRight_eq_div_pow, Nat.div_div_eq_div_mul,
        ← Nat.pow_add, Nat.mul_succ, Nat.add_comm 8]

end Sys2Proof.Machine
end

