-- ==== Sys2Proof/Laws/Memory.lean ====
section
/-! SUPPORT. The laws of the output memory: read after write, and the canonical form. -/

namespace Sys2Proof.Machine

@[simp] theorem Memory.read_nil (a : Nat) : Memory.read [] a = none := rfl

theorem Memory.wf_nil : Memory.wf [] := List.Pairwise.nil

/-- A write leaves a byte at its address. -/
@[simp] theorem Memory.read_write_same (m : Memory) (a : Nat) (b : Byte) :
    (m.write a b).read a = some b := by
  induction m with
  | nil => simp [Memory.write, Memory.read]
  | cons cell rest ih =>
    obtain ⟨x, c⟩ := cell
    rw [Memory.write]
    split
    · simp [Memory.read]
    · split
      · simp [Memory.read]
      · rename_i h h'
        simp [Memory.read, Ne.symm h', ih]

/-- A write leaves every other address alone. -/
theorem Memory.read_write_other (m : Memory) {a a' : Nat} (b : Byte) (h : a' ≠ a) :
    (m.write a b).read a' = m.read a' := by
  induction m with
  | nil => simp [Memory.write, Memory.read, Ne.symm h]
  | cons cell rest ih =>
    obtain ⟨x, c⟩ := cell
    rw [Memory.write]
    split
    · simp [Memory.read, Ne.symm h]
    · split
      · rename_i h' hax
        subst hax
        simp [Memory.read, Ne.symm h]
      · simp [Memory.read, ih]

/-- The addresses of a written memory: the old ones and the written one. -/
theorem Memory.mem_write {m : Memory} {a : Nat} {b : Byte} {cell : Host.Cell}
    (h : cell ∈ m.write a b) : cell = (a, b) ∨ cell ∈ m := by
  induction m with
  | nil => simpa [Memory.write] using h
  | cons head rest ih =>
    obtain ⟨x, c⟩ := head
    rw [Memory.write] at h
    split at h
    · simpa using h
    · split at h
      · rcases List.mem_cons.1 h with h | h
        · exact .inl h
        · exact .inr (List.mem_cons_of_mem _ h)
      · rcases List.mem_cons.1 h with h | h
        · exact .inr (h ▸ List.mem_cons_self)
        · exact (ih h).imp_right (List.mem_cons_of_mem _)

/-- Every write keeps the canonical form. -/
theorem Memory.wf_write {m : Memory} (a : Nat) (b : Byte) (h : m.wf) : (m.write a b).wf := by
  induction m with
  | nil => simp [Memory.write]
  | cons head rest ih =>
    obtain ⟨x, c⟩ := head
    obtain ⟨hx, hrest⟩ := List.pairwise_cons.1 h
    rw [Memory.write]
    split
    · rename_i hax
      refine List.pairwise_cons.2 ⟨fun cell hc => ?_, h⟩
      rcases List.mem_cons.1 hc with rfl | hc
      · exact hax
      · exact hax.trans (hx cell hc)
    · split
      · rename_i hax
        exact List.pairwise_cons.2 ⟨fun cell hc => hax ▸ hx cell hc, hrest⟩
      · refine List.pairwise_cons.2 ⟨fun cell hc => ?_, ih hrest⟩
        rcases Memory.mem_write hc with rfl | hc
        · show x < a
          omega
        · exact hx cell hc

/-- The memory after reset has the canonical form. -/
theorem Memory.wf_reset : State.reset.out.wf := Memory.wf_nil

end Sys2Proof.Machine
end

