-- ==== Sys2Proof/Laws/State.lean ====
section
/-! SUPPORT. One lemma per field per update of `State`, each true by `rfl`. -/

namespace Sys2Proof.Machine

@[simp] theorem State.respond_acc (r : Response) (s : State) : (s.respond r).acc = s.acc := rfl
@[simp] theorem State.respond_n (r : Response) (s : State) : (s.respond r).n = s.n := rfl
@[simp] theorem State.respond_v1 (r : Response) (s : State) : (s.respond r).v1 = s.v1 := rfl
@[simp] theorem State.respond_have1 (r : Response) (s : State) : (s.respond r).have1 = s.have1 := rfl
@[simp] theorem State.respond_mode (r : Response) (s : State) : (s.respond r).mode = s.mode := rfl
@[simp] theorem State.respond_err (r : Response) (s : State) : (s.respond r).err = s.err := rfl
@[simp] theorem State.respond_errinfo (r : Response) (s : State) : (s.respond r).errinfo = s.errinfo := rfl
@[simp] theorem State.respond_len (r : Response) (s : State) : (s.respond r).len = s.len := rfl
@[simp] theorem State.respond_out (r : Response) (s : State) : (s.respond r).out = s.out := rfl
@[simp] theorem State.respond_epoch (r : Response) (s : State) : (s.respond r).epoch = s.epoch := rfl
@[simp] theorem State.respond_cfg (r : Response) (s : State) : (s.respond r).cfg = s.cfg := rfl
@[simp] theorem State.respond_resp (r : Response) (s : State) : (s.respond r).resp = some r := rfl
@[simp] theorem State.respond_input (r : Response) (s : State) : (s.respond r).input = s.input := rfl
@[simp] theorem State.respond_tick (r : Response) (s : State) : (s.respond r).tick = s.tick := rfl
@[simp] theorem State.respond_resets (r : Response) (s : State) : (s.respond r).resets = s.resets := rfl

@[simp] theorem State.raise_acc (x : ErrCode) (w : CmdWord) (s : State) : (s.raise x w).acc = s.acc := rfl
@[simp] theorem State.raise_n (x : ErrCode) (w : CmdWord) (s : State) : (s.raise x w).n = s.n := rfl
@[simp] theorem State.raise_v1 (x : ErrCode) (w : CmdWord) (s : State) : (s.raise x w).v1 = s.v1 := rfl
@[simp] theorem State.raise_have1 (x : ErrCode) (w : CmdWord) (s : State) : (s.raise x w).have1 = s.have1 := rfl
@[simp] theorem State.raise_mode (x : ErrCode) (w : CmdWord) (s : State) : (s.raise x w).mode = .fault := rfl
@[simp] theorem State.raise_err (x : ErrCode) (w : CmdWord) (s : State) : (s.raise x w).err = x := rfl
@[simp] theorem State.raise_errinfo (x : ErrCode) (w : CmdWord) (s : State) : (s.raise x w).errinfo = w := rfl
@[simp] theorem State.raise_len (x : ErrCode) (w : CmdWord) (s : State) : (s.raise x w).len = s.len := rfl
@[simp] theorem State.raise_out (x : ErrCode) (w : CmdWord) (s : State) : (s.raise x w).out = s.out := rfl
@[simp] theorem State.raise_epoch (x : ErrCode) (w : CmdWord) (s : State) : (s.raise x w).epoch = s.epoch := rfl
@[simp] theorem State.raise_cfg (x : ErrCode) (w : CmdWord) (s : State) : (s.raise x w).cfg = s.cfg := rfl
@[simp] theorem State.raise_resp (x : ErrCode) (w : CmdWord) (s : State) : (s.raise x w).resp = some (.fault x) := rfl
@[simp] theorem State.raise_input (x : ErrCode) (w : CmdWord) (s : State) : (s.raise x w).input = s.input := rfl
@[simp] theorem State.raise_tick (x : ErrCode) (w : CmdWord) (s : State) : (s.raise x w).tick = s.tick := rfl
@[simp] theorem State.raise_resets (x : ErrCode) (w : CmdWord) (s : State) : (s.raise x w).resets = s.resets := rfl

@[simp] theorem State.refuse_acc (s : State) : (s.refuse).acc = s.acc := rfl
@[simp] theorem State.refuse_n (s : State) : (s.refuse).n = s.n := rfl
@[simp] theorem State.refuse_v1 (s : State) : (s.refuse).v1 = s.v1 := rfl
@[simp] theorem State.refuse_have1 (s : State) : (s.refuse).have1 = s.have1 := rfl
@[simp] theorem State.refuse_mode (s : State) : (s.refuse).mode = s.mode := rfl
@[simp] theorem State.refuse_err (s : State) : (s.refuse).err = s.err := rfl
@[simp] theorem State.refuse_errinfo (s : State) : (s.refuse).errinfo = s.errinfo := rfl
@[simp] theorem State.refuse_len (s : State) : (s.refuse).len = s.len := rfl
@[simp] theorem State.refuse_out (s : State) : (s.refuse).out = s.out := rfl
@[simp] theorem State.refuse_epoch (s : State) : (s.refuse).epoch = s.epoch := rfl
@[simp] theorem State.refuse_cfg (s : State) : (s.refuse).cfg = s.cfg := rfl
@[simp] theorem State.refuse_resp (s : State) : (s.refuse).resp = some (.refused s.err) := rfl
@[simp] theorem State.refuse_input (s : State) : (s.refuse).input = s.input := rfl
@[simp] theorem State.refuse_tick (s : State) : (s.refuse).tick = s.tick := rfl
@[simp] theorem State.refuse_resets (s : State) : (s.refuse).resets = s.resets := rfl

@[simp] theorem State.clearEngine_acc (s : State) : (s.clearEngine).acc = 0 := rfl
@[simp] theorem State.clearEngine_n (s : State) : (s.clearEngine).n = 0 := rfl
@[simp] theorem State.clearEngine_v1 (s : State) : (s.clearEngine).v1 = 0 := rfl
@[simp] theorem State.clearEngine_have1 (s : State) : (s.clearEngine).have1 = false := rfl
@[simp] theorem State.clearEngine_mode (s : State) : (s.clearEngine).mode = s.mode := rfl
@[simp] theorem State.clearEngine_err (s : State) : (s.clearEngine).err = s.err := rfl
@[simp] theorem State.clearEngine_errinfo (s : State) : (s.clearEngine).errinfo = s.errinfo := rfl
@[simp] theorem State.clearEngine_len (s : State) : (s.clearEngine).len = s.len := rfl
@[simp] theorem State.clearEngine_out (s : State) : (s.clearEngine).out = s.out := rfl
@[simp] theorem State.clearEngine_epoch (s : State) : (s.clearEngine).epoch = s.epoch := rfl
@[simp] theorem State.clearEngine_cfg (s : State) : (s.clearEngine).cfg = s.cfg := rfl
@[simp] theorem State.clearEngine_resp (s : State) : (s.clearEngine).resp = s.resp := rfl
@[simp] theorem State.clearEngine_input (s : State) : (s.clearEngine).input = s.input := rfl
@[simp] theorem State.clearEngine_tick (s : State) : (s.clearEngine).tick = s.tick := rfl
@[simp] theorem State.clearEngine_resets (s : State) : (s.clearEngine).resets = s.resets := rfl

@[simp] theorem State.leaveFault_acc (s : State) : (s.leaveFault).acc = 0 := rfl
@[simp] theorem State.leaveFault_n (s : State) : (s.leaveFault).n = 0 := rfl
@[simp] theorem State.leaveFault_v1 (s : State) : (s.leaveFault).v1 = 0 := rfl
@[simp] theorem State.leaveFault_have1 (s : State) : (s.leaveFault).have1 = false := rfl
@[simp] theorem State.leaveFault_mode (s : State) : (s.leaveFault).mode = .idle := rfl
@[simp] theorem State.leaveFault_err (s : State) : (s.leaveFault).err = .none := rfl
@[simp] theorem State.leaveFault_errinfo (s : State) : (s.leaveFault).errinfo = 0 := rfl
@[simp] theorem State.leaveFault_len (s : State) : (s.leaveFault).len = s.len := rfl
@[simp] theorem State.leaveFault_out (s : State) : (s.leaveFault).out = s.out := rfl
@[simp] theorem State.leaveFault_epoch (s : State) : (s.leaveFault).epoch = s.epoch := rfl
@[simp] theorem State.leaveFault_cfg (s : State) : (s.leaveFault).cfg = s.cfg := rfl
@[simp] theorem State.leaveFault_resp (s : State) : (s.leaveFault).resp = s.resp := rfl
@[simp] theorem State.leaveFault_input (s : State) : (s.leaveFault).input = s.input := rfl
@[simp] theorem State.leaveFault_tick (s : State) : (s.leaveFault).tick = s.tick := rfl
@[simp] theorem State.leaveFault_resets (s : State) : (s.leaveFault).resets = s.resets := rfl

@[simp] theorem State.appendByte_acc (b : Byte) (s : State) : (s.appendByte b).acc = s.acc := rfl
@[simp] theorem State.appendByte_n (b : Byte) (s : State) : (s.appendByte b).n = s.n := rfl
@[simp] theorem State.appendByte_v1 (b : Byte) (s : State) : (s.appendByte b).v1 = s.v1 := rfl
@[simp] theorem State.appendByte_have1 (b : Byte) (s : State) : (s.appendByte b).have1 = s.have1 := rfl
@[simp] theorem State.appendByte_mode (b : Byte) (s : State) : (s.appendByte b).mode = s.mode := rfl
@[simp] theorem State.appendByte_err (b : Byte) (s : State) : (s.appendByte b).err = s.err := rfl
@[simp] theorem State.appendByte_errinfo (b : Byte) (s : State) : (s.appendByte b).errinfo = s.errinfo := rfl
@[simp] theorem State.appendByte_len (b : Byte) (s : State) : (s.appendByte b).len = s.len + 1 := rfl
@[simp] theorem State.appendByte_out (b : Byte) (s : State) : (s.appendByte b).out = s.out.write s.len b := rfl
@[simp] theorem State.appendByte_epoch (b : Byte) (s : State) : (s.appendByte b).epoch = s.epoch + 1 := rfl
@[simp] theorem State.appendByte_cfg (b : Byte) (s : State) : (s.appendByte b).cfg = s.cfg := rfl
@[simp] theorem State.appendByte_resp (b : Byte) (s : State) : (s.appendByte b).resp = s.resp := rfl
@[simp] theorem State.appendByte_input (b : Byte) (s : State) : (s.appendByte b).input = s.input := rfl
@[simp] theorem State.appendByte_tick (b : Byte) (s : State) : (s.appendByte b).tick = s.tick := rfl
@[simp] theorem State.appendByte_resets (b : Byte) (s : State) : (s.appendByte b).resets = s.resets := rfl

@[simp] theorem State.hardReset_acc (s : State) : (s.hardReset).acc = 0 := rfl
@[simp] theorem State.hardReset_n (s : State) : (s.hardReset).n = 0 := rfl
@[simp] theorem State.hardReset_v1 (s : State) : (s.hardReset).v1 = 0 := rfl
@[simp] theorem State.hardReset_have1 (s : State) : (s.hardReset).have1 = false := rfl
@[simp] theorem State.hardReset_mode (s : State) : (s.hardReset).mode = .idle := rfl
@[simp] theorem State.hardReset_err (s : State) : (s.hardReset).err = .none := rfl
@[simp] theorem State.hardReset_errinfo (s : State) : (s.hardReset).errinfo = 0 := rfl
@[simp] theorem State.hardReset_len (s : State) : (s.hardReset).len = 0 := rfl
@[simp] theorem State.hardReset_out (s : State) : (s.hardReset).out = [] := rfl
@[simp] theorem State.hardReset_epoch (s : State) : (s.hardReset).epoch = 0 := rfl
@[simp] theorem State.hardReset_cfg (s : State) : (s.hardReset).cfg = s.cfg := rfl
@[simp] theorem State.hardReset_resp (s : State) : (s.hardReset).resp = none := rfl
@[simp] theorem State.hardReset_input (s : State) : (s.hardReset).input = s.input := rfl
@[simp] theorem State.hardReset_tick (s : State) : (s.hardReset).tick = s.tick := rfl
@[simp] theorem State.hardReset_resets (s : State) : (s.hardReset).resets = s.resets + 1 := rfl

@[simp] theorem State.take_acc (rest : List HostEvent) (s : State) : (s.take rest).acc = s.acc := rfl
@[simp] theorem State.take_n (rest : List HostEvent) (s : State) : (s.take rest).n = s.n := rfl
@[simp] theorem State.take_v1 (rest : List HostEvent) (s : State) : (s.take rest).v1 = s.v1 := rfl
@[simp] theorem State.take_have1 (rest : List HostEvent) (s : State) : (s.take rest).have1 = s.have1 := rfl
@[simp] theorem State.take_mode (rest : List HostEvent) (s : State) : (s.take rest).mode = s.mode := rfl
@[simp] theorem State.take_err (rest : List HostEvent) (s : State) : (s.take rest).err = s.err := rfl
@[simp] theorem State.take_errinfo (rest : List HostEvent) (s : State) : (s.take rest).errinfo = s.errinfo := rfl
@[simp] theorem State.take_len (rest : List HostEvent) (s : State) : (s.take rest).len = s.len := rfl
@[simp] theorem State.take_out (rest : List HostEvent) (s : State) : (s.take rest).out = s.out := rfl
@[simp] theorem State.take_epoch (rest : List HostEvent) (s : State) : (s.take rest).epoch = s.epoch := rfl
@[simp] theorem State.take_cfg (rest : List HostEvent) (s : State) : (s.take rest).cfg = s.cfg := rfl
@[simp] theorem State.take_resp (rest : List HostEvent) (s : State) : (s.take rest).resp = s.resp := rfl
@[simp] theorem State.take_input (rest : List HostEvent) (s : State) : (s.take rest).input = rest := rfl
@[simp] theorem State.take_tick (rest : List HostEvent) (s : State) : (s.take rest).tick = s.tick + 1 := rfl
@[simp] theorem State.take_resets (rest : List HostEvent) (s : State) : (s.take rest).resets = s.resets := rfl

end Sys2Proof.Machine
end

