-- ==== Sys2Proof/Laws/Ops.lean ====
section
/-! SUPPORT. What each shared operation can do, said once. -/

namespace Sys2Proof.Machine

/-- `appendAll` writes `OUT`, `LEN` and `EPOCH` only. -/
theorem State.appendAll_eq (bs : List Byte) (s : State) :
    s.appendAll bs = { s with
      out := (s.appendAll bs).out, len := s.len + bs.length, epoch := s.epoch + bs.length } := by
  induction bs generalizing s with
  | nil => rfl
  | cons b rest ih =>
    rw [State.appendAll, ih]
    simp only [State.appendByte, List.length_cons]
    congr 1 <;> omega

@[simp] theorem State.appendAll_nil (s : State) : s.appendAll [] = s := rfl

@[simp] theorem State.appendAll_cons (b : Byte) (bs : List Byte) (s : State) :
    s.appendAll (b :: bs) = (s.appendByte b).appendAll bs := rfl

theorem State.appendAll_append (bs cs : List Byte) (s : State) :
    s.appendAll (bs ++ cs) = (s.appendAll bs).appendAll cs := by
  induction bs generalizing s with
  | nil => rfl
  | cons b rest ih => exact ih _

@[simp] theorem State.appendAll_len (bs : List Byte) (s : State) :
    (s.appendAll bs).len = s.len + bs.length := by rw [State.appendAll_eq]

@[simp] theorem State.appendAll_epoch (bs : List Byte) (s : State) :
    (s.appendAll bs).epoch = s.epoch + bs.length := by rw [State.appendAll_eq]

/-- Appending stores byte `j` at `LEN + j`. -/
theorem State.appendAll_read_new (bs : List Byte) (s : State) (j : Nat) (h : j < bs.length) :
    (s.appendAll bs).out.read (s.len + j) = some bs[j] := by
  induction bs generalizing s j with
  | nil => cases h
  | cons b rest ih =>
    cases j with
    | zero =>
      suffices hs : ∀ (cs : List Byte) (t : State), s.len < t.len →
          (t.appendAll cs).out.read s.len = t.out.read s.len by
        simpa using hs rest (s.appendByte b) (by simp)
      intro cs
      induction cs with
      | nil => intro t _; rfl
      | cons c cs ihc =>
        intro t ht
        rw [State.appendAll_cons, ihc _ (by simp; omega)]
        exact Memory.read_write_other _ _ (by omega)
    | succ j =>
      have := ih (s.appendByte b) j (by simpa using h)
      simpa [Nat.add_assoc, Nat.add_comm 1 j] using this

/-- Appending leaves every address outside `LEN .. LEN + k - 1` alone. -/
theorem State.appendAll_read_other (bs : List Byte) (s : State) (a : Nat)
    (h : a < s.len ∨ s.len + bs.length ≤ a) : (s.appendAll bs).out.read a = s.out.read a := by
  induction bs generalizing s with
  | nil => rfl
  | cons b rest ih =>
    simp only [List.length_cons] at h
    rw [State.appendAll_cons, ih _ (by simp; omega)]
    exact Memory.read_write_other _ _ (by omega)

theorem State.appendAll_wf (bs : List Byte) (s : State) (h : s.out.wf) :
    (s.appendAll bs).out.wf := by
  induction bs generalizing s with
  | nil => exact h
  | cons b rest ih => exact ih _ (Memory.wf_write _ _ h)

/-- All a gated command can do: its effect, `ProtocolError`, or a refusal. -/
theorem gate_eq (i : Instr) (effect : State → State) (s : State) :
    (legality i s.mode = .executes ∧ gate i effect s = .next (effect s)) ∨
    (legality i s.mode = .protocolError ∧
      gate i effect s = .next (s.raise .protocolError (encode i))) ∨
    (legality i s.mode = .refused ∧ gate i effect s = .next s.refuse) := by
  unfold gate
  cases h : legality i s.mode <;> simp

/-- All an emitting command can do: everything, or `OutOfMemory` and nothing. -/
theorem emit_eq (i : Instr) (bytes : List Byte) (update : State → State) (s : State) :
    (s.hasRoom bytes.length = true ∧ emit i bytes update s =
      (update (s.appendAll bytes)).respond (.ok (BitVec.ofNat 8 bytes.length))) ∨
    (s.hasRoom bytes.length = false ∧ emit i bytes update s =
      s.raise .outOfMemory (encode i)) := by
  unfold emit
  cases h : s.hasRoom bytes.length <;> simp

/-- Room for nothing is always there (60_exceptions.md R232). -/
@[simp] theorem State.hasRoom_zero (s : State) : s.hasRoom 0 = true := rfl

theorem State.hasRoom_pos (s : State) {k : Nat} (h : 0 < k) :
    s.hasRoom k = s.cfg.fits (s.len + k) := by
  simp [State.hasRoom, Nat.pos_iff_ne_zero.1 h]

theorem Config.fits_mono {c : Config} {a b : Nat} (h : a ≤ b) (hb : c.fits b = true) :
    c.fits a = true := by
  unfold Config.fits at *
  split at hb
  · rfl
  · simp only [decide_eq_true_eq] at *
    omega

end Sys2Proof.Machine
end

