-- ==== Sys2Proof/Laws/Exec.lean ====
section
/-! SUPPORT. Every command is its effect behind the gate; what `exec` can answer, said once. -/

namespace Sys2Proof.Machine

/-- The effect of each command, by name. -/
def effectOf (i : Instr) : State → State :=
  match i with
  | .nop       => nopEffect
  | .encStart  => encStartEffect
  | .encByte b => encByteEffect b
  | .encEnd    => encEndEffect
  | .decStart  => decStartEffect
  | .decSym c  => decSymEffect c
  | .decEnd    => decEndEffect
  | .outReset  => outResetEffect
  | .tabSym v  => tabSymEffect v
  | .tabVal c  => tabValEffect c
  | .clr       => clrEffect

theorem exec_eq_gate (i : Instr) (s : State) : exec i s = gate i (effectOf i) s := by
  cases i <;> rfl

/-- INVERSION of `exec`: the effect in a mode the command executes in, a `ProtocolError`, or a
refusal in mode `FAULT`. -/
theorem exec_inv {i : Instr} {s t : State} (h : exec i s = .next t) :
    (legality i s.mode = .executes ∧ t = effectOf i s) ∨
    (legality i s.mode = .protocolError ∧ t = s.raise .protocolError (encode i)) ∨
    (legality i s.mode = .refused ∧ t = s.refuse) := by
  rw [exec_eq_gate] at h
  rcases gate_eq i (effectOf i) s with ⟨hl, hg⟩ | ⟨hl, hg⟩ | ⟨hl, hg⟩ <;>
    rw [hg] at h <;> injection h with h <;> simp [hl, h.symm]

theorem exec_of_executes {i : Instr} {s : State} (h : legality i s.mode = .executes) :
    exec i s = .next (effectOf i s) := by
  rw [exec_eq_gate, gate, h]

/-- Every command in every state answers a next state (93_implementation_defined.md: nothing in the
block is stuck). -/
theorem exec_answers (i : Instr) (s : State) : ∃ t, exec i s = .next t := by
  rw [exec_eq_gate]
  rcases gate_eq i (effectOf i) s with ⟨_, hg⟩ | ⟨_, hg⟩ | ⟨_, hg⟩ <;> exact ⟨_, hg⟩

/-- Only mode `FAULT` refuses, and only a command that is not `CLR` (30_encoding.md R88). -/
theorem legality_refused_iff (i : Instr) (m : Mode) :
    legality i m = .refused ↔ m = .fault ∧ i ≠ .clr := by
  cases i <;> cases m <;> simp [legality, legalityRow]

@[simp] theorem State.appendAll_cfg (bs : List Byte) (s : State) :
    (s.appendAll bs).cfg = s.cfg := by rw [State.appendAll_eq]

end Sys2Proof.Machine
end

