-- ==== Sys2Proof/Laws/Run.lean ====
section
/-! SUPPORT. The step and a run of steps, unfolded once. -/

namespace Sys2Proof.Machine

/-- A run of `k + 1` steps whose first step answers `t` is a run of `k` steps from `t`. -/
theorem runSteps_succ_of_next {s t : State} (k : Nat) (h : step s = .next t) :
    runSteps (k + 1) s = runSteps k t := by
  rw [runSteps, h]

theorem step_nil {s : State} (h : s.input = []) : step s = .fault .noCommand := by
  unfold step
  rw [h]

theorem step_cons {s : State} {e : HostEvent} {rest : List HostEvent} (h : s.input = e :: rest) :
    step s = handle e (s.take rest) := by
  unfold step
  rw [h]

end Sys2Proof.Machine
end

