-- ==== Sys2Proof/Machine/Assembler.lean ====
section
/-! DEFINITION. The assembler notation of 30_encoding.md R90 and the pseudo-instructions of R92: one
line to its commands. Where the notation is loose, log entry 16 says what is accepted. -/

namespace Sys2Proof.Machine

/-- A piece of a line: a run of characters outside apostrophes, or what stands between two. -/
inductive Token where
  | word (cs : List Char)
  | quoted (cs : List Char)
  deriving DecidableEq, Repr

/-- Close the run of characters collected so far (kept newest first), if there is one. -/
def closeWord (cur : List Char) : List Token :=
  match cur with
  | []     => []
  | c :: r => [.word (c :: r).reverse]

/-- Tokens of a line; `//` outside apostrophes ends it; `none` when an apostrophe is left open
(30_encoding.md R90). DESIGN CHOICE (log entry 16): only the space separates, and a literal needs none
before or after it. -/
def tokens (inQuote : Bool) (cur : List Char) (line : List Char) : Option (List Token) :=
  match line with
  | [] => if inQuote then none else some (closeWord cur)
  | c :: rest =>
    if inQuote then
      if c = '\'' then (tokens false [] rest).map (Token.quoted cur.reverse :: ·)
      else tokens true (c :: cur) rest
    else if c = '/' ∧ rest.head? = some '/' then some (closeWord cur)
    else if c = '\'' then (tokens true [] rest).map (closeWord cur ++ ·)
    else if c = ' ' then (tokens false [] rest).map (closeWord cur ++ ·)
    else tokens false (c :: cur) rest

/-- The value of a digit in a base of at most 16. -/
def digitValue (radix : Nat) (c : Char) : Option Nat :=
  let n := c.toNat
  let v := if 48 ≤ n ∧ n ≤ 57 then n - 48
    else if 65 ≤ n ∧ n ≤ 70 then n - 55
    else if 97 ≤ n ∧ n ≤ 102 then n - 87
    else radix
  if v < radix then some v else none

/-- A number from its digits, most significant first. -/
def digitsValue (radix acc : Nat) (cs : List Char) : Option Nat :=
  match cs with
  | []        => some acc
  | c :: rest =>
    match digitValue radix c with
    | some v => digitsValue radix (acc * radix + v) rest
    | none   => none

/-- A number as an 8-bit operand. -/
def asByte (n : Option Nat) : Option Byte :=
  match n with
  | some v => if v < 256 then some (BitVec.ofNat 8 v) else none
  | none   => none

/-- A decimal or hexadecimal operand (30_encoding.md R90). -/
def numberOperand (cs : List Char) : Option Byte :=
  match cs with
  | []                => none
  | '0' :: 'x' :: d :: r => asByte (digitsValue 16 0 (d :: r))
  | d :: r            => asByte (digitsValue 10 0 (d :: r))

/-- The ASCII code of a character of a literal (30_encoding.md R90). -/
def charCode (c : Char) : Option Byte :=
  if c.toNat < 128 then some (BitVec.ofNat 8 c.toNat) else none

/-- The operand bytes of one token: a number is one, a literal one for each character (30_encoding.md
R90, R92). DESIGN CHOICE (log entry 16): an empty literal is no operand. -/
def tokenBytes (t : Token) : Option (List Byte) :=
  match t with
  | .word cs   => (numberOperand cs).map ([·])
  | .quoted cs => cs.mapM charCode

/-- The operand bytes of a line, in order. -/
def operandBytes (ts : List Token) : Option (List Byte) := (ts.mapM tokenBytes).map List.flatten

/-- A command without operand. -/
def bare (i : Instr) (bytes : List Byte) : Option (List Instr) :=
  match bytes with
  | [] => some [i]
  | _  => none

/-- A command with one operand. -/
def unary (f : Byte → Instr) (bytes : List Byte) : Option (List Instr) :=
  match bytes with
  | [b] => some [f b]
  | _   => none

/-- The commands of a mnemonic or pseudo-instruction with its operand bytes (30_encoding.md R83,
R90, R92). -/
def spelled (m : List Char) (bytes : List Byte) : Option (List Instr) :=
  if m = ['N', 'O', 'P'] then bare .nop bytes
  else if m = ['E', 'N', 'C', '.', 'S', 'T', 'A', 'R', 'T'] then bare .encStart bytes
  else if m = ['E', 'N', 'C', '.', 'B', 'Y', 'T', 'E'] then unary .encByte bytes
  else if m = ['E', 'N', 'C', '.', 'E', 'N', 'D'] then bare .encEnd bytes
  else if m = ['D', 'E', 'C', '.', 'S', 'T', 'A', 'R', 'T'] then bare .decStart bytes
  else if m = ['D', 'E', 'C', '.', 'S', 'Y', 'M'] then unary .decSym bytes
  else if m = ['D', 'E', 'C', '.', 'E', 'N', 'D'] then bare .decEnd bytes
  else if m = ['O', 'U', 'T', '.', 'R', 'E', 'S', 'E', 'T'] then bare .outReset bytes
  else if m = ['T', 'A', 'B', '.', 'S', 'Y', 'M'] then unary .tabSym bytes
  else if m = ['T', 'A', 'B', '.', 'V', 'A', 'L'] then unary .tabVal bytes
  else if m = ['C', 'L', 'R'] then bare .clr bytes
  else if m = ['E', 'N', 'C', 'O', 'D', 'E'] then some (encodeCall bytes)
  else if m = ['D', 'E', 'C', 'O', 'D', 'E'] then some (decodeCall bytes)
  else if m = ['F', 'R', 'E', 'S', 'H', '.', 'E', 'N', 'C', 'O', 'D', 'E'] then
    some (freshEncodeCall bytes)
  else if m = ['F', 'R', 'E', 'S', 'H', '.', 'D', 'E', 'C', 'O', 'D', 'E'] then
    some (freshDecodeCall bytes)
  else none

/-- A line to its command words, none for an empty or comment line; refused when it is no line of
the notation (30_encoding.md R90, R92). -/
def assembleLine (line : List Char) : Option (List CmdWord) :=
  match tokens false [] line with
  | none                      => none
  | some []                   => some []
  | some (.quoted _ :: _)     => none
  | some (.word m :: operands) =>
    match operandBytes operands with
    | none       => none
    | some bytes => (spelled m bytes).map (fun cmds => cmds.map encode)

end Sys2Proof.Machine
end

