-- ==== Sys2Proof/Tests/Slice0.lean ====
section
/-! SUPPORT. Tests of the model on the vectors of 95_test_vectors.md, and a witness for the
hypotheses of every obligation. -/

namespace Sys2Proof.Tests

open Sys2Proof Sys2Proof.Machine

/-! ## Helpers -/

/-- The next state of an outcome, if it is one. -/
def next? (o : Host.Outcome State Fault Refusal) : Option State :=
  match o with
  | .next t    => some t
  | .fault _   => none
  | .refused _ => none

/-- What a test looks at: the response word, `ACC`, `V1`, `LEN`, the bytes of `OUT`, `STATUS`. -/
structure Seen where
  resp   : Option (BitVec 12)
  acc    : Nat
  v1     : Nat
  len    : Nat
  out    : List Byte
  status : BitVec 16
  deriving DecidableEq, Repr

/-- What a test sees of an outcome. -/
def view (o : Host.Outcome State Fault Refusal) : Option Seen :=
  (next? o).map fun t =>
    ⟨t.resp.map Response.word, t.acc.toNat, t.v1.toNat, t.len, t.out.map (·.2), t.statusWord⟩

/-- `OUT_CAP` bytes of room, the default table. -/
def capped (cap : Option Nat) : Config := { Config.default with outCap := cap }

/-- In a call of encode, with bits held. -/
def inEnc (acc : AccWord) (n : CountWord) (cap : Option Nat) : State :=
  { State.reset with mode := .enc, acc := acc, n := n, cfg := capped cap }

/-- In a call of decode, with bits and perhaps a half held. -/
def inDec (acc : AccWord) (n : CountWord) (half : Option HalfWord) (cap : Option Nat) : State :=
  { State.reset with
    mode := .dec, acc := acc, n := n, v1 := half.getD 0, have1 := half.isSome, cfg := capped cap }

/-- After the fault of row 1 of program P5. -/
def inFault : State :=
  { State.reset with mode := .fault, err := .protocolError, errinfo := 0x200 }

/-- A state with words presented. -/
def fed (s : State) (events : List HostEvent) : State := { s with input := events }

/-! ## Well-formedness: `TAB.SYM` is the one command with a check (30_encoding.md R84) -/

theorem test_wellFormed_refuses_tabSym_91 : Instr.wellFormed (.tabSym 91) = false := by decide
theorem test_wellFormed_admits_tabSym_90 : Instr.wellFormed (.tabSym 90) = true := by decide

/-! ## Decoding: each word written out from the map of 30_encoding.md R83 -/

theorem test_decode_nop : decode 0b000000000000 = .legal .nop := by decide
theorem test_decode_encStart : decode 0b000100000000 = .legal .encStart := by decide
theorem test_decode_encByte : decode 0b001001110100 = .legal (.encByte 0x74) := by decide
theorem test_decode_encEnd : decode 0b001100000000 = .legal .encEnd := by decide
theorem test_decode_decStart : decode 0b010000000000 = .legal .decStart := by decide
theorem test_decode_decSym : decode 0b010100101111 = .legal (.decSym 0x2F) := by decide
theorem test_decode_decEnd : decode 0b011000000000 = .legal .decEnd := by decide
theorem test_decode_outReset : decode 0b011100000000 = .legal .outReset := by decide
theorem test_decode_tabSym : decode 0b100001011010 = .legal (.tabSym 90) := by decide
theorem test_decode_tabVal : decode 0b100111111111 = .legal (.tabVal 0xFF) := by decide
theorem test_decode_clr : decode 0b101000000000 = .legal .clr := by decide

/-- 30_encoding.md R84: the three kinds of illegal word. -/
theorem test_decode_illegal :
    decode 0xB00 = .illegal .reservedOpcode ∧ decode 0xFFF = .illegal .reservedOpcode ∧
    decode 0x101 = .illegal .operandNotZero ∧ decode 0xA01 = .illegal .operandNotZero ∧
    decode 0x85B = .illegal .valueOutOfRange := by decide

/-- The words of program P2 and P8 (95_test_vectors.md). -/
theorem test_encode :
    [Instr.outReset, .decStart, .decSym 0x2F, .decEnd, .tabSym 0x22, .tabVal 0x58].map encode =
      [0x700, 0x400, 0x52F, 0x600, 0x822, 0x958] := by decide

theorem test_decodeTableWord :
    decodeTableWord 16 0x274 = some (.encByte 0x74) ∧ decodeTableWord 12 0x274 = some (.encByte 0x74) ∧
    decodeTableWord 16 0x1274 = none := by decide

theorem test_withFetchWord :
    view (step (State.reset.withFetchWord 16 0x100)) = some ⟨some 0, 0, 0, 0, [], 0x0001⟩ := by decide

/-! ## One step of each command (95_test_vectors.md section 8) -/

/-- P8 row 17. -/
theorem test_nop : view (exec .nop (inEnc 0xFF 8 none)) = some ⟨some 0, 0xFF, 0, 0, [], 0x0201⟩ := by
  decide

/-- P1 row 2. -/
theorem test_encStart : view (exec .encStart State.reset) = some ⟨some 0, 0, 0, 0, [], 0x0001⟩ := by
  decide

/-- P5 row 10. -/
theorem test_decStart_in_call : view (exec .decStart (inEnc 0 0 none)) =
    some ⟨some 0x400, 0, 0, 0, [], 0x0023⟩ := by decide

/-- P1 row 4: a short group. -/
theorem test_encByte_short : view (exec (.encByte 0x00) (inEnc 0xFF 8 none)) =
    some ⟨some 2, 0, 0, 2, [0x2F, 0x43], 0x00C1⟩ := by decide

/-- E13: the largest group value takes the long width. -/
theorem test_encByte_long : view (exec (.encByte 0x20) (inEnc 0x58 8 none)) =
    some ⟨some 2, 0, 0, 2, [0x22, 0x22], 0x0081⟩ := by decide

/-- P1 row 6: two symbols. -/
theorem test_encEnd_two : view (exec .encEnd (inEnc 0x7F8 11 none)) =
    some ⟨some 2, 0, 0, 2, [0x6D, 0x57], 0x0000⟩ := by decide

/-- P4 row 9: one symbol. -/
theorem test_encEnd_one : view (exec .encEnd (inEnc 0x1D 6 none)) =
    some ⟨some 1, 0, 0, 1, [0x64], 0x0000⟩ := by decide

/-- P2 row 2. -/
theorem test_decStart : view (exec .decStart State.reset) = some ⟨some 0, 0, 0, 0, [], 0x0002⟩ := by
  decide

/-- P2 row 5: the first symbol of a pair. -/
theorem test_decSym_first : view (exec (.decSym 0x6D) (inDec 0 5 none none)) =
    some ⟨some 0, 0, 38, 0, [], 0x0146⟩ := by decide

/-- P2 row 6: the second. -/
theorem test_decSym_second : view (exec (.decSym 0x57) (inDec 0 5 (some 38) none)) =
    some ⟨some 2, 0, 0, 2, [0x00, 0xFF], 0x0082⟩ := by decide

/-- P3 row 5. -/
theorem test_decSym_miss : view (exec (.decSym 0x20) (inDec 0 5 none none)) =
    some ⟨some 0x100, 0, 0, 0, [], 0x014B⟩ := by decide

/-- P6 row 5: a lone final symbol. -/
theorem test_decEnd_lone : view (exec .decEnd (inDec 0 6 (some 0) none)) =
    some ⟨some 1, 0, 0, 1, [0x00], 0x0000⟩ := by decide

/-- P2 row 7: leftover bits are dropped. -/
theorem test_decEnd_leftover : view (exec .decEnd (inDec 0 2 none none)) =
    some ⟨some 0, 0, 0, 0, [], 0x0000⟩ := by decide

/-- P4 row 10: `LEN` is 0 and `EPOCH` 8. -/
theorem test_outReset :
    (next? (exec .outReset { State.reset with len := 7, epoch := 7 })).map
      (fun t => (t.resp, t.len, t.epoch)) = some (some (.ok 0), 0, 8) := by decide

/-- P5 row 13. -/
theorem test_outReset_in_call : view (exec .outReset (inEnc 0 0 none)) =
    some ⟨some 0x400, 0, 0, 0, [], 0x0023⟩ := by decide

/-- Section 2 of 95_test_vectors.md. -/
theorem test_tabSym :
    ([0, 25, 26, 34, 51, 52, 61, 62, 88, 89, 90].map fun v =>
      (view (exec (.tabSym v) State.reset)).map (·.resp)) =
    [0x041, 0x05A, 0x061, 0x069, 0x07A, 0x030, 0x039, 0x021, 0x07D, 0x07E, 0x022].map
      (fun r => some (some r)) := by decide

/-- Section 2 of 95_test_vectors.md. -/
theorem test_tabVal :
    ([0x41, 0x58, 0x7E, 0x22, 0x20, 0x27, 0x2D, 0x5C, 0x00, 0x7F, 0xFF].map fun c =>
      (view (exec (.tabVal c) State.reset)).map (·.resp)) =
    [0x000, 0x017, 0x059, 0x05A, 0x080, 0x080, 0x080, 0x080, 0x080, 0x080, 0x080].map
      (fun r => some (some r)) := by decide

/-- P5 row 2. -/
theorem test_clr : view (exec .clr inFault) = some ⟨some 0, 0, 0, 0, [], 0x0000⟩ := by decide

/-- P5 row 17: the pending half is frozen. -/
theorem test_clr_in_call : view (exec .clr (inDec 0 0 (some 73) none)) =
    some ⟨some 0x400, 0, 73, 0, [], 0x0027⟩ := by decide

/-- P7 row 5: a command that would append more than fits appends nothing and takes no byte. -/
theorem test_outOfMemory :
    view (exec (.encByte 0x74) { inEnc 0x39B 11 (some 3) with len := 2, out := [(0, 0x66), (1, 0x50)] }) =
      some ⟨some 0x200, 0x39B, 0, 2, [0x66, 0x50], 0x02D3⟩ := by decide

/-- P7 row 6: refused in mode `FAULT`. -/
theorem test_refused :
    view (exec .encEnd { inEnc 0x39B 11 none with mode := .fault, err := .outOfMemory, errinfo := 0x274 }) =
      some ⟨some 0xF02, 0x39B, 0, 0, [], 0x02D3⟩ := by decide

/-- P5 row 7. -/
theorem test_illegal_word : view (accept 0x85B State.reset) =
    some ⟨some 0x300, 0, 0, 0, [], 0x001B⟩ := by decide

/-- E2, E12 and E15 of 95_test_vectors.md. -/
theorem test_encodeBytes :
    [[0x00], [0x59, 0x00], [0xFF, 0x1F]].map (encodeBytes Config.default) =
      [[0x41, 0x41], [0x7E, 0x41, 0x41], [0x42, 0x22, 0x41]] := by decide

/-- Programs P2 and P6 of 95_test_vectors.md. -/
theorem test_decodeBytes :
    [[0x2F, 0x43, 0x6D, 0x57], [0x41, 0x41, 0x41]].map (decodeBytes Config.default) =
      [some [0xFF, 0x00, 0xFF], some [0x00, 0x00]] := by decide

/-- The read port: `OUT[0]`, `LEN`, `ERRINFO`, and a view (43_output_buffer.md R193, R194). -/
theorem test_readPort :
    ({ State.reset with len := 1, out := [(0, 0xFF)], epoch := 1 } : State).ownedCopy = [0xFF] ∧
    State.hostReg 2 { State.reset with len := 1 } = 1 ∧ inFault.hostReg 1 = 0x200 ∧
    State.readView ⟨0, 0, 1⟩ 0 { State.reset with epoch := 1 } = .refused := by decide

/-- 20_memory.md R58: the last slice that fits, the empty one at the end; past the end log entry 23. -/
theorem test_regionSlice :
    regionSlice [1, 2, 3] 1 2 = some [2, 3] ∧ regionSlice [1, 2, 3] 3 0 = some [] ∧
    regionSlice [1, 2, 3] 2 2 = none := by decide

/-- 30_encoding.md R90, R92: a line with a comment, the notations of an operand, a pseudo-instruction
(program P4). -/
theorem test_assembleLine :
    assembleLine ['E', 'N', 'C', '.', 'B', 'Y', 'T', 'E', ' ', '0', 'x', '7', '4', ' ', '/', '/', 'x'] =
      some [0x274] ∧
    assembleLine ['T', 'A', 'B', '.', 'S', 'Y', 'M', ' ', '9', '0'] = some [0x85A] ∧
    assembleLine ['E', 'N', 'C', 'O', 'D', 'E', ' ', '\'', 't', 'e', '\''] =
      some [0x100, 0x274, 0x265, 0x300] ∧
    assembleLine ['C', 'L', 'R', ' ', '1'] = none ∧
    assembleLine ['E', 'N', 'C', 'O', 'D', 'E', ' ', '\'', '\''] = some [0x100, 0x300] := by decide

/-! ## Witnesses: states and operands that meet the hypotheses of the obligations -/

theorem witness_DecodeOfEncodeIsTheCommand :
    Instr.wellFormed (.tabSym 90) = true ∧ Instr.wellFormed (.encByte 0xFF) = true := by decide

theorem witness_LegalWordIsTheWordOfItsCommand : decode 0x85A = .legal (.tabSym 90) := by decide

theorem witness_MatchAndMaskSayWhichCommandAWordSpells :
    (0x85A : CmdWord) &&& (matchMask (.tabSym 0)).2 = (matchMask (.tabSym 0)).1 ∧
    ((0x85A : CmdWord).extractLsb' 0 8).toNat ≤ 90 ∧ decode 0x85A = .legal (.tabSym 90) ∧
    opcode (.tabSym 90) = opcode (.tabSym 0) := by decide

theorem witness_ReservedWordsAreIllegal :
    decode 0xB00 = .illegal .reservedOpcode ∧ decode 0x0FF = .illegal .operandNotZero ∧
    decode 0x85B = .illegal .valueOutOfRange ∧ State.reset.mode ≠ .fault ∧ inFault.mode = .fault := by
  decide

theorem witness_StepRunsTheDecodedCommand :
    (fed State.reset [.command 0x100]).input = .command 0x100 :: [] ∧
    decode 0x100 = .legal .encStart := by decide

/-- Lines 1 and 2 of the order of checks. -/
theorem witness_StepChecksInTheFixedOrder_refused_illegal :
    inFault.mode = .fault ∧ (0x100 : CmdWord) ≠ 0xA00 ∧ inFault.cfg.fits inFault.len = true ∧
    State.reset.mode ≠ .fault ∧ decode 0xB00 = .illegal .reservedOpcode := by decide

/-- Lines 3 and 4. -/
theorem witness_StepChecksInTheFixedOrder_protocol_symbol :
    legality (.encByte 0) State.reset.mode = .protocolError ∧
    legality (.decSym 0x20) (inDec 0 0 none none).mode ≠ .protocolError ∧
    valueOf (inDec 0 0 none none).cfg 0x20 = none := by decide

/-- Lines 5 and 6: with room for one byte less, and with just enough. -/
theorem witness_StepChecksInTheFixedOrder_room :
    legality (.encByte 0) (inEnc 0 6 (some 1)).mode ≠ .protocolError ∧
    (inEnc 0 6 (some 1)).cfg.fits (0 + (inEnc 0 6 (some 1)).appendCount (.encByte 0)) = false ∧
    (inEnc 0 6 (some 2)).cfg.fits (0 + (inEnc 0 6 (some 2)).appendCount (.encByte 0)) = true ∧
    (inEnc 0 6 (some 1)).cfg.fits (inEnc 0 6 (some 1)).len = true := by decide

/-- A cell `R`, a cell `P` and the cell `x` of `CLR` in `FAULT`, and an illegal word. -/
theorem witness_LegalityMatrixByMode :
    (inFault.mode = .fault ∧ Instr.nop ≠ .clr) ∧ RaisesProtocolError .clr .enc ∧
    ¬ RaisesProtocolError .clr .fault ∧ (inFault.mode = .fault → Instr.clr = .clr) ∧
    decode 0xA01 = .illegal .operandNotZero :=
  ⟨by decide, .inl ⟨by decide, by decide⟩, by simp, fun _ => rfl, by decide⟩

theorem witness_RunOfPresentedWordsIsTheCommandSequence :
    (∀ i ∈ encodeCall [0x5A], i.wellFormed = true) ∧
    ∃ t, execAll (encodeCall [0x5A]) State.reset = .next t := ⟨by decide, _, rfl⟩

theorem witness_EveryFaultIsPrecise :
    ∃ t, accept 0xB00 State.reset = .next t ∧ t.resp = some (.fault .illegalCommand) :=
  ⟨_, rfl, rfl⟩

theorem witness_InvalidSymbolExactlyOnAMiss :
    ∃ t, exec (.decSym 0x20) (inDec 0 7 (some 90) none) = .next t ∧
      t.resp = some (.fault .invalidSymbol) := ⟨_, rfl, by decide⟩

theorem witness_OutOfMemoryExactlyWhenTheAppendDoesNotFit :
    (∃ t, exec .decEnd (inDec 0 7 (some 90) (some 0)) = .next t ∧
      t.resp = some (.fault .outOfMemory)) ∧
    ∃ t, exec .decEnd (inDec 0 7 (some 90) (some 1)) = .next t ∧ t.resp = some (.ok 1) :=
  ⟨⟨_, rfl, by decide⟩, _, rfl, by decide⟩

theorem witness_FirstFaultIsKeptUntilClr :
    (fed inFault [.command 0x85B, .command 0x100]).mode = .fault ∧
    (∀ w ∈ [(0x85B : CmdWord), 0x100], w ≠ 0xA00) ∧
    (fed inFault [.command 0x85B, .command 0x100]).input =
      [(0x85B : CmdWord), 0x100].map .command := by decide

theorem witness_OnlyClrAndResetLeaveFault :
    inFault.mode = .fault ∧
    (∃ t, step (fed inFault [.command 0xA00]) = .next t ∧ t.mode ≠ .fault) ∧
    ∃ t, step (fed inFault [.reset]) = .next t ∧ t.mode ≠ .fault :=
  ⟨rfl, ⟨_, rfl, by decide⟩, _, rfl, by decide⟩

theorem witness_ModeTransitions :
    ∃ t, step (fed State.reset [.command 0x400]) = .next t ∧ t.mode = .dec := ⟨_, rfl, rfl⟩

theorem witness_ResetEventRestoresTheResetValues :
    (fed inFault [.reset, .command 0]).input = .reset :: [.command 0] ∧
    (inEnc 0 0 none).resets ≤ (fed inFault [.reset, .command 0]).resets := ⟨rfl, Nat.le_refl 0⟩

/-- A state of every run of P1 with `LEN > 0`, and one in `IDLE`. -/
def midway (mode : Mode) (acc : AccWord) (n : CountWord) : State :=
  { State.reset with
    mode := mode, acc := acc, n := n, len := 2, epoch := 3, out := [(0, 0x2F), (1, 0x43)] }

/-- The invariant of such a state, from the parts that depend on it. -/
theorem midway_inv (mode : Mode) (acc : AccWord) (n : CountWord)
    (h : acc.toNat < 2 ^ n.toNat ∧ n.toNat ≤ 13 ∧ (mode = .idle → acc = 0 ∧ n = 0) ∧
      (mode = .dec → n.toNat ≤ 7) ∧ mode ≠ .fault) : (midway mode acc n).Inv where
  accFits      := h.1
  countBound   := h.2.1
  halfBound    := by show (0 : Nat) ≤ 90; omega
  halfClear    := fun _ => rfl
  idleClear    := fun hm => ⟨(h.2.2.1 hm).1, (h.2.2.1 hm).2, rfl, rfl⟩
  encNoHalf    := fun _ => ⟨rfl, rfl⟩
  decCount     := h.2.2.2.1
  errMode      := iff_of_true rfl h.2.2.2.2
  errinfoClear := fun _ => rfl
  lenFits      := rfl
  outCanonical := show Memory.wf [(0, 0x2F), (1, 0x43)] by decide
  outHolds     := show ∀ i < 2, (Memory.read [(0, 0x2F), (1, 0x43)] i).isSome = true by decide
  outInSpace   := fun _ _ => rfl
  alphabetWf   := show Config.default.wf by decide

/-- The invariant does not mention the input. -/
theorem fed_inv {s : State} (events : List HostEvent) (h : s.Inv) : (fed s events).Inv :=
  ⟨h.1, h.2, h.3, h.4, h.5, h.6, h.7, h.8, h.9, h.10, h.11, h.12, h.13, h.14⟩

theorem witness_EveryStepKeepsTheInvariant :
    (fed (midway .enc 0x1FFF 13) [.command 0x2FF]).Inv ∧
    ∃ t, step (fed (midway .enc 0x1FFF 13) [.command 0x2FF]) = .next t :=
  ⟨fed_inv _ (midway_inv _ _ _ (by decide)), _, rfl⟩

theorem witness_SameEpochSameOutput :
    ∃ t, execAll [.nop, .encStart] (midway .idle 0 0) = .next t ∧ t.epoch = 3 := ⟨_, rfl, rfl⟩

theorem witness_ReadPortReturnsTheRegisters :
    1 < (midway .idle 0 0).len ∧ (midway .idle 0 0).out.read 1 = some 0x43 := by decide

theorem witness_BorrowedViewReadsTheBorrowedBytes :
    (midway .idle 0 0).Inv ∧
    (∃ t, execAll [.encStart] (midway .idle 0 0) = .next t ∧ t.epoch = 3) ∧
    ∃ t, execAll [.outReset] (midway .idle 0 0) = .next t ∧ t.epoch ≠ 3 :=
  ⟨midway_inv _ _ _ (by decide), ⟨_, rfl, rfl⟩, _, rfl, by decide⟩

/-- Runs with a reset, with an illegal word and the same `EPOCH`, and with an append. -/
theorem witness_BorrowedViewReadsTheBorrowedBytes_runs :
    (fed (midway .idle 0 0) [.reset, .command 0x700]).Inv ∧
    (.reset ∈ (fed (midway .idle 0 0) [.reset, .command 0x700]).input.take 2 ∧
      ∃ t, runSteps 2 (fed (midway .idle 0 0) [.reset, .command 0x700]) = .next t) ∧
    (.reset ∉ (fed (midway .idle 0 0) [.command 0xB00]).input.take 1 ∧
      ∃ t, runSteps 1 (fed (midway .idle 0 0) [.command 0xB00]) = .next t ∧ t.epoch = 3) ∧
    ∃ t, runSteps 1 (fed (midway .idle 0 0) [.command 0x700]) = .next t ∧ t.epoch ≠ 3 :=
  ⟨fed_inv _ (midway_inv _ _ _ (by decide)), ⟨by decide, _, rfl⟩, ⟨by decide, _, rfl, rfl⟩, _, rfl,
    by decide⟩

/-- 43_output_buffer.md R194: a view taken at `EPOCH` 1 is refused after a reset and an append that
brings `EPOCH` back to 1. -/
theorem test_view_dies_at_reset :
    (next? (runSteps 4 (fed { State.reset with len := 1, epoch := 1, out := [(0, 0xFF)] }
        [.reset, .command 0x400, .command 0x541, .command 0x541]))).map
      (fun t => (t.epoch, t.readView ⟨0, 1, 1⟩ 0)) = some (1, .refused) := by decide

/-- The modes of `NopChangesNothing`, `ClrLeavesFaultAndKeepsTheBuffer`, `OutResetSetsTheLengthToZero`,
`EncStartClearsTheAccumulator`, `DecStartClearsTheAccumulator` and the two lookups, inside and outside
`StopsOutside`; an operand for `BareWord`. -/
theorem witness_modes :
    State.reset.mode = .idle ∧ (inEnc 0 0 none).mode = .enc ∧ (inDec 0 0 none none).mode = .dec ∧
    inFault.mode = .fault ∧ (1 : Byte) ≠ 0 ∧ State.reset.mode ∉ [Mode.enc] ∧
    (inEnc 0 0 none).mode ∉ [Mode.idle, .fault] ∧ inFault.mode ∉ [Mode.idle, .enc, .dec] := by decide

theorem witness_OutAppendStoresOneByteAtLen : (midway .idle 0 0).out.wf ∧ (3 : Nat) ≠ 2 :=
  ⟨(midway_inv _ _ _ (by decide)).outCanonical, by decide⟩

/-- A storing command, with an address below and one beyond what it stores, and a fault. -/
theorem witness_CommandsStoreOnlyTheBytesTheyAppend :
    (∃ t, exec (.encByte 0) (midway .enc 0 6) = .next t ∧ (1 < 2 ∨ 2 + 2 ≤ 1) ∧
      (4 < 2 ∨ 2 + (midway .enc 0 6).appendCount (.encByte 0) ≤ 4)) ∧
    ∃ t, exec .decEnd (midway .enc 0 6) = .next t ∧ t.resp = some (.fault .protocolError) :=
  ⟨⟨_, rfl, by decide⟩, _, rfl, rfl⟩

/-- Every hypothesis of `CommandsWriteOnlyTheirRegisters`: each pair of registers changes somewhere.
-/
theorem witness_CommandsWriteOnlyTheirRegisters :
    (∃ t, exec (.encByte 0xFF) (midway .enc 0 6) = .next t ∧ t.acc ≠ 0 ∧ t.len ≠ 2) ∧
    (∃ t, exec (.decSym 0x42) (inDec 0 0 none none) = .next t ∧ t.v1 ≠ 0) ∧
    ∃ t, exec .clr inFault = .next t ∧ t.err ≠ inFault.err ∧ t.mode ≠ inFault.mode :=
  ⟨⟨_, rfl, by decide⟩, ⟨_, rfl, by decide⟩, _, rfl, by decide⟩

theorem witness_AppendsAreAllOrNothing :
    (midway .enc 0 6).Inv ∧ (midway .dec 0 7).Inv ∧
    (∃ t, exec (.encByte 0) (midway .enc 0 6) = .next t ∧ t.resp = some (.ok 2)) ∧
    (∃ t, exec .clr (midway .enc 0 6) = .next t ∧ t.resp = some (.fault .protocolError)) ∧
    legality (.decSym 0x41) Mode.dec = .executes ∧ valueOf Config.default 0x41 ≠ none :=
  ⟨midway_inv _ _ _ (by decide), midway_inv _ _ _ (by decide), ⟨_, rfl, by decide⟩, ⟨_, rfl, rfl⟩,
    by decide⟩

theorem witness_AppendedBytesNeverChange :
    Instr.outReset ∉ encodeCall [0x5A] ∧
    ∃ t, execAll (encodeCall [0x5A]) (midway .idle 0 0) = .next t := ⟨by decide, _, rfl⟩

theorem witness_ReusedBufferGivesTheFreshResult :
    (midway .idle 0 0).Inv ∧ (midway .idle 0 0).mode = .idle ∧
    (midway .idle 0 0).cfg.fits (2 + (encodeBytes Config.default [0x5A]).length) = true ∧
    decodeBytes (midway .idle 0 0).cfg [0x41, 0x41] = some [0x00] ∧
    (midway .idle 0 0).cfg.fits (2 + 1) = true ∧ (midway .idle 0 0).cfg.outCap = none ∧
    valueOf (midway .idle 0 0).cfg 0x41 ≠ none ∧ valueOf (midway .idle 0 0).cfg 0x20 = none :=
  ⟨midway_inv _ _ _ (by decide), by decide⟩

theorem witness_EncodeCallAppendsItsEncoding :
    (midway .idle 0 0).Inv ∧ (midway .idle 0 0).mode = .idle ∧
    (midway .idle 0 0).cfg.fits (2 + (encodeBytes Config.default [0x5A]).length) = true ∧
    Config.default.alphabet = (capped (some 3)).alphabet :=
  ⟨midway_inv _ _ _ (by decide), rfl, rfl, rfl⟩

/-- A stream that decodes, a miss after a pair and a half with just enough room for the pair's byte,
and two parameters of one table. -/
theorem witness_DecodeCallAppendsItsDecoding :
    (midway .idle 0 0).Inv ∧ (midway .idle 0 0).mode = .idle ∧
    decodeBytes (midway .idle 0 0).cfg [0x41, 0x41] = some [0x00] ∧
    (midway .idle 0 0).cfg.fits (2 + 1) = true ∧
    (∀ x ∈ [(0x41 : Byte), 0x41, 0x42], valueOf (midway .idle 0 0).cfg x ≠ none) ∧
    valueOf (midway .idle 0 0).cfg 0x20 = none ∧
    decodeBytes (midway .idle 0 0).cfg ([0x41, 0x41, 0x42].take (2 * (3 / 2))) = some [0x00] ∧
    Config.default.alphabet = (capped (some 3)).alphabet :=
  ⟨midway_inv _ _ _ (by decide), by decide⟩

/-- The same miss with `OUT_CAP = 1`, room for exactly the byte of the pair. -/
theorem witness_DecodeCallAppendsItsDecoding_exact_room :
    (capped (some 1)).fits (0 + 1) = true ∧
    (next? (execAll (decodeCall [0x41, 0x41, 0x42, 0x20]) { State.reset with cfg := capped (some 1) })).map
      (fun t => (t.mode, t.err, t.errinfo, t.len)) = some (.fault, .invalidSymbol, 0x520, 1) := by
  decide

theorem witness_DecodingAnEncodingReturnsTheInput :
    (midway .idle 0 0).Inv ∧ (midway .idle 0 0).mode = .idle ∧
    (midway .idle 0 0).cfg.fits (encodeBytes (midway .idle 0 0).cfg [0x5A]).length = true :=
  ⟨midway_inv _ _ _ (by decide), rfl, rfl⟩

theorem witness_TableLookupsAreInverse :
    Config.default.wf ∧ valueOf Config.default 0x22 = some 90 := by decide

theorem witness_TabSymRespondsWithTheSymbol :
    (90 : Byte).toNat ≤ 90 ∧ 90 < (91 : Byte).toNat ∧ State.reset.mode ≠ .fault := by decide

theorem witness_TabValRespondsWithTheValueOrTheMissBit :
    valueOf State.reset.cfg 0x20 = none ∧ valueOf State.reset.cfg 0x7E = some 89 := by decide

/-- 13 and 14 bits; room for one byte and for two; the values 88 and 89 of the threshold. -/
theorem witness_EncByteFeedsOneByte :
    (inEnc 0 5 none).n.toNat + 8 ≤ 13 ∧ (inEnc 0 6 none).n.toNat + 8 > 13 ∧
    (inEnc 0 6 (some 1)).cfg.fits (0 + 2) = false ∧ (inEnc 0 6 (some 2)).cfg.fits (0 + 2) = true ∧
    (((0x18 : AccWord) ||| ((0x01 : Byte).setWidth 24 <<< 6)).extractLsb' 0 13).toNat = 88 ∧
    (((0x19 : AccWord) ||| ((0x01 : Byte).setWidth 24 <<< 6)).extractLsb' 0 13).toNat = 89 := by decide

/-- Nothing held, 8 bits of value 0, 7 bits of value 91 and of value 90; room short by one byte. -/
theorem witness_EncEndFlushesTheRemainingBits :
    (inEnc 0 0 none).n = 0 ∧ (inEnc 0 8 none).n.toNat > 7 ∧ (inEnc 91 7 none).acc.toNat ≥ 91 ∧
    (inEnc 91 7 none).n ≠ 0 ∧ (inEnc 90 7 none).n.toNat ≤ 7 ∧ (inEnc 90 7 none).acc.toNat < 91 ∧
    (inEnc 0 8 (some 1)).cfg.fits (0 + 2) = false ∧ (inEnc 0 8 (some 2)).cfg.fits (0 + 2) = true ∧
    (inEnc 90 7 (some 0)).cfg.fits (0 + 1) = false ∧ (inEnc 90 7 (some 1)).cfg.fits (0 + 1) = true := by
  decide

theorem witness_EncoderLoopRunsAtMostOnce : (13 : CountWord).toNat ≤ 13 ∧ (1 : Nat) ≤ 1 := by decide

theorem witness_EncGroupGivesExactlyTheGroups :
    88 < ((89 : AccWord).extractLsb' 0 13).toNat ∧ ((0x2058 : AccWord).extractLsb' 0 13).toNat ≤ 88 := by
  decide

/-- The widest accumulator, with a value that a command and a flush emit. -/
theorem witness_SymbolLookupsStayInTheirDomain :
    (midway .enc 0x1FFF 13).Inv ∧ 90 ∈ (encFeed 0x1FFF 13 0xFF).vals ∧ 1 ∈ flushVals 0x1FFF 13 :=
  ⟨midway_inv _ _ _ (by decide), by decide⟩

theorem witness_FlushAgreesWithTheThresholdLogic : (midway .enc 0x1FFF 13).Inv :=
  midway_inv _ _ _ (by decide)

theorem witness_EncodingIsInjectiveAndInTheAlphabet :
    Config.default.wf ∧ (0x41 : Byte) ∈ encodeBytes Config.default [0x00] := by decide

theorem witness_DecSymHoldsTheFirstOfAPair :
    (inDec 0 7 none none).mode = .dec ∧ (inDec 0 7 none none).have1 = false ∧
    valueOf (inDec 0 7 none none).cfg 0x20 = none ∧
    valueOf (inDec 0 7 none none).cfg 0x22 = some 90 := by decide

/-- 15 and 16 bits (`N` 2 and 3 with 13 more), each with just enough room, and 7 held bits with 13
more and room short by one byte. -/
theorem witness_DecSymCompletesThePair :
    (inDec 0 2 (some 89) (some 1)).mode = .dec ∧ (inDec 0 2 (some 89) (some 1)).have1 = true ∧
    valueOf (inDec 0 2 (some 89) (some 1)).cfg 0x41 = some 0 ∧
    (if 88 < (89 + 0 * 91) % 8192 then 13 else 14) = 13 ∧
    2 + 13 < 16 ∧ (inDec 0 2 (some 89) (some 1)).cfg.fits (0 + 1) = true ∧
    16 ≤ 3 + 13 ∧ (inDec 0 3 (some 89) (some 2)).cfg.fits (0 + 2) = true ∧
    (inDec 0 7 (some 89) (some 1)).n.toNat ≤ 7 ∧
    (inDec 0 7 (some 89) (some 1)).cfg.fits (0 + (7 + 13) / 8) = false := by decide

theorem witness_DecSymFaultsOnAMiss :
    (inDec 0 7 (some 1) none).mode = .dec ∧ valueOf (inDec 0 7 (some 1) none).cfg 0x5C = none := by
  decide

theorem witness_DecEndFoldsInTheLoneSymbol :
    (inDec 0 7 none none).have1 = false ∧ (inDec 0 7 (some 0) none).have1 = true ∧
    (inDec 0 7 (some 0) (some 0)).cfg.fits (0 + 1) = false ∧
    (inDec 0 7 (some 0) (some 1)).cfg.fits (0 + 1) = true := by decide

theorem witness_EveryPairIsAWellFormedGroup :
    90 ≤ 90 ∧ 90 + 91 * 90 ≤ 8280 := by decide

theorem witness_DecoderLoopRunsOnceOrTwice : (7 : CountWord).toNat ≤ 7 ∧ (2 : Nat) ≤ 2 := by decide

theorem witness_DecodedLengthBounds :
    decodeBytes Config.default [0x22, 0x22, 0x42] = some [0x58, 0x60] := by decide

end Sys2Proof.Tests
end

section
/-! What the port makes of a presented word (00_scope.md R9, 30_encoding.md R89). -/

namespace Sys2Proof.Machine

theorem accept_of_legal {w : CmdWord} {i : Instr} (h : decode w = .legal i) (s : State) :
    accept w s = exec i s := by
  rw [accept, h]

theorem step_command {s : State} {w : CmdWord} {rest : List HostEvent}
    (h : s.input = .command w :: rest) : step s = accept w (s.take rest) := by
  rw [step_cons h, handle]

/-- Settles O6: the step hands the word to the port at the taken state, and the port runs what it
decodes to. -/
theorem stepRunsTheDecodedCommand : Obligations.StepRunsTheDecodedCommand := by
  intro s w rest i hinput hdecode
  calc step s = accept w (s.take rest) := step_command hinput
    _ = exec i (s.take rest) := accept_of_legal hdecode _
    _ = exec i { s with input := rest, tick := s.tick + 1 } := by rw [State.take]

end Sys2Proof.Machine
end

section
/-! What a command writes (10_state.md R20, column "written by") and how `MODE` moves (R26). -/

namespace Sys2Proof.Machine

/-- `s` with the registers of the row of `i` in 10_state.md R20 taken from `u`, for a command that
executes without a fault; where the row's rule fixes the value of `MODE`, that value. -/
def State.writeRow (i : Instr) (s u : State) : State :=
  match i with
  | .nop       => { s with resp := u.resp }
  | .encStart  => { s with acc := u.acc, n := u.n, v1 := u.v1, have1 := u.have1, mode := .enc,
                           resp := u.resp }
  | .encByte _ => { s with acc := u.acc, n := u.n, out := u.out, len := u.len, epoch := u.epoch,
                           resp := u.resp }
  | .encEnd    => { s with acc := u.acc, n := u.n, mode := .idle, out := u.out, len := u.len,
                           epoch := u.epoch, resp := u.resp }
  | .decStart  => { s with acc := u.acc, n := u.n, v1 := u.v1, have1 := u.have1, mode := .dec,
                           resp := u.resp }
  | .decSym _  => { s with acc := u.acc, n := u.n, v1 := u.v1, have1 := u.have1, out := u.out,
                           len := u.len, epoch := u.epoch, resp := u.resp }
  | .decEnd    => { s with acc := u.acc, n := u.n, v1 := u.v1, have1 := u.have1, mode := .idle,
                           out := u.out, len := u.len, epoch := u.epoch, resp := u.resp }
  | .outReset  => { s with len := u.len, epoch := u.epoch, resp := u.resp }
  | .tabSym _  => { s with resp := u.resp }
  | .tabVal _  => { s with resp := u.resp }
  | .clr       => { s with acc := u.acc, n := u.n, v1 := u.v1, have1 := u.have1, err := u.err,
                           errinfo := u.errinfo, mode := .idle, resp := u.resp }

/-- `t` is what a fault of `i` makes of `s`, or differs from `s` in the registers of the row only. -/
def RaisesOrWritesRow (i : Instr) (s t : State) : Prop :=
  (∃ x, t = s.raise x (encode i)) ∨ t = s.writeRow i t

/-- A command that may append raises `OutOfMemory` or writes its row, when its register updates keep
to the row wherever the appends leave `OUT`, `LEN` and `EPOCH`. -/
theorem emit_raisesOrWritesRow {i : Instr} {bytes : List Byte} {update : State → State} {s : State}
    (hrow : ∀ out len epoch r,
      (update { s with out := out, len := len, epoch := epoch }).respond r =
        s.writeRow i ((update { s with out := out, len := len, epoch := epoch }).respond r)) :
    RaisesOrWritesRow i s (emit i bytes update s) := by
  rcases emit_eq i bytes update s with ⟨-, h⟩ | ⟨-, h⟩
  · rw [h, State.appendAll_eq]
    exact .inr (hrow _ _ _ _)
  · exact .inl ⟨_, h⟩

theorem completePair_raisesOrWritesRow (c : Byte) (d : Nat) (s : State) :
    RaisesOrWritesRow (.decSym c) s (s.completePair c d) := by
  rw [State.completePair]
  exact emit_raisesOrWritesRow fun _ _ _ _ => rfl

theorem decSymEffect_raisesOrWritesRow (c : Byte) (s : State) :
    RaisesOrWritesRow (.decSym c) s (decSymEffect c s) := by
  unfold decSymEffect
  cases valueOf s.cfg c with
  | none => exact .inl ⟨_, rfl⟩
  | some d =>
    cases s.have1 with
    | false => exact .inr rfl
    | true => exact completePair_raisesOrWritesRow c d s

theorem tabSymEffect_raisesOrWritesRow (v : Byte) (s : State) :
    RaisesOrWritesRow (.tabSym v) s (tabSymEffect v s) := by
  unfold tabSymEffect
  split
  · exact .inr rfl
  · exact .inl ⟨_, rfl⟩

/-- The effect of every command is a fault, or writes the registers of its row and nothing else. -/
theorem effectOf_raisesOrWritesRow (i : Instr) (s : State) :
    RaisesOrWritesRow i s (effectOf i s) := by
  cases i with
  | nop | encStart | decStart | outReset | tabVal _ | clr => exact .inr rfl
  | encByte b =>
    rw [effectOf, encByteEffect]
    exact emit_raisesOrWritesRow fun _ _ _ _ => rfl
  | encEnd =>
    rw [effectOf, encEndEffect]
    exact emit_raisesOrWritesRow fun _ _ _ _ => rfl
  | decEnd =>
    rw [effectOf, decEndEffect]
    exact emit_raisesOrWritesRow fun _ _ _ _ => rfl
  | decSym c => exact decSymEffect_raisesOrWritesRow c s
  | tabSym v => exact tabSymEffect_raisesOrWritesRow v s

/-- INVERSION of `exec` by what is written: a fault, a refusal, or the row of the command in a mode
it executes in. -/
theorem exec_raises_refuses_or_writesRow {i : Instr} {s t : State} (h : exec i s = .next t) :
    (∃ x, t = s.raise x (encode i)) ∨ t = s.refuse ∨
    (legality i s.mode = .executes ∧ ∃ u, t = s.writeRow i u) := by
  rcases exec_inv h with ⟨hlegal, rfl⟩ | ⟨-, rfl⟩ | ⟨-, rfl⟩
  · exact (effectOf_raisesOrWritesRow i s).imp_right fun hrow => .inr ⟨hlegal, _, hrow⟩
  · exact .inl ⟨_, rfl⟩
  · exact .inr (.inl rfl)

/-- Settles O29: a fault and a refusal write no register outside `ERR`, `ERRINFO` and `MODE`; a
command that executes writes its row, which the statement lists register by register. -/
theorem commandsWriteOnlyTheirRegisters : Obligations.CommandsWriteOnlyTheirRegisters := by
  intro i s t h
  rcases exec_raises_refuses_or_writesRow h with ⟨x, rfl⟩ | rfl | ⟨-, u, rfl⟩
  · simp
  · simp
  · cases i <;> simp [State.writeRow]

/-- The transitions of `MODE` that commands make (10_state.md R26). -/
def CommandMovesMode (i : Instr) (m m' : Mode) : Prop :=
  (i = .encStart ∧ m = .idle ∧ m' = .enc) ∨
  (i = .encEnd ∧ m = .enc ∧ m' = .idle) ∨
  (i = .decStart ∧ m = .idle ∧ m' = .dec) ∨
  (i = .decEnd ∧ m = .dec ∧ m' = .idle) ∨
  (i = .clr ∧ m = .fault ∧ m' = .idle)

/-- The modes that the commands which move `MODE` execute in (30_encoding.md R88). -/
theorem mode_of_executes (m : Mode) :
    (legality .encStart m = .executes → m = .idle) ∧
    (legality .encEnd m = .executes → m = .enc) ∧
    (legality .decStart m = .executes → m = .idle) ∧
    (legality .decEnd m = .executes → m = .dec) ∧
    (legality .clr m = .executes → m = .idle ∨ m = .fault) := by
  cases m <;> decide

/-- A command that executes keeps `MODE` or makes its own transition; `CLR` in mode `IDLE` keeps it. -/
theorem writeRow_mode_cases {i : Instr} {s : State} (u : State)
    (hlegal : legality i s.mode = .executes) :
    (s.writeRow i u).mode = s.mode ∨ CommandMovesMode i s.mode (s.writeRow i u).mode := by
  obtain ⟨hencStart, hencEnd, hdecStart, hdecEnd, hclr⟩ := mode_of_executes s.mode
  cases i with
  | nop | encByte _ | decSym _ | outReset | tabSym _ | tabVal _ => exact .inl rfl
  | encStart => exact .inr (.inl ⟨rfl, hencStart hlegal, rfl⟩)
  | encEnd => exact .inr (.inr (.inl ⟨rfl, hencEnd hlegal, rfl⟩))
  | decStart => exact .inr (.inr (.inr (.inl ⟨rfl, hdecStart hlegal, rfl⟩)))
  | decEnd => exact .inr (.inr (.inr (.inr (.inl ⟨rfl, hdecEnd hlegal, rfl⟩))))
  | clr =>
    rcases hclr hlegal with hidle | hfault
    · exact .inl hidle.symm
    · exact .inr (.inr (.inr (.inr (.inr ⟨rfl, hfault, rfl⟩))))

theorem accept_of_illegal {w : CmdWord} {why : IllegalWord} (h : decode w = .illegal why)
    (s : State) : accept w s = .next (s.illegalWord w) := by
  rw [accept, h]

/-- All an illegal word can do: `IllegalCommand`, or in mode `FAULT` a refusal (30_encoding.md R84). -/
theorem State.illegalWord_eq (s : State) (w : CmdWord) :
    (s.mode ≠ .fault ∧ s.illegalWord w = s.raise .illegalCommand w) ∨
    (s.mode = .fault ∧ s.illegalWord w = s.refuse) := by
  by_cases hfault : s.mode = .fault <;> simp [State.illegalWord, hfault]

/-- Settles O15: of the events, reset leads to `IDLE`, an illegal word and a fault to `FAULT`, a
refusal nowhere, and a command that executes makes its own transition. -/
theorem modeTransitions : Obligations.ModeTransitions := by
  intro s t h
  match hinput : s.input with
  | [] => rw [step_nil hinput] at h; cases h
  | .reset :: rest =>
    rw [step_cons hinput] at h
    cases h
    exact .inr (.inr (.inl ⟨rfl, rest, rfl⟩))
  | .command w :: rest =>
    rw [step_command hinput] at h
    cases hdecode : decode w with
    | illegal why =>
      rw [accept_of_illegal hdecode] at h
      cases h
      rcases (s.take rest).illegalWord_eq w with ⟨-, hraise⟩ | ⟨-, hrefuse⟩
      · rw [hraise]
        exact .inr (.inl ⟨rfl, _, rfl⟩)
      · rw [hrefuse]
        exact .inl rfl
    | legal i =>
      rw [accept_of_legal hdecode] at h
      rcases exec_raises_refuses_or_writesRow h with ⟨x, rfl⟩ | rfl | ⟨hlegal, u, rfl⟩
      · exact .inr (.inl ⟨rfl, x, rfl⟩)
      · exact .inl rfl
      · exact (writeRow_mode_cases u hlegal).imp_right fun hcommand =>
          .inr (.inr ⟨w, rest, i, rfl, hdecode, hcommand⟩)

end Sys2Proof.Machine
end

section
/-! The reset state and the host's read port (10_state.md R33, R34, R36, R37). -/

namespace Sys2Proof.Machine

/-- Settles O17: every item of the invariant at the reset values; nothing is listed in `OUT` and
`OUT_CAP` is unbounded. -/
theorem resetStateMeetsTheInvariant : Obligations.ResetStateMeetsTheInvariant where
  accFits      := Nat.one_pos
  countBound   := Nat.zero_le 13
  halfBound    := Nat.zero_le 90
  halfClear    := fun _ => rfl
  idleClear    := fun _ => ⟨rfl, rfl, rfl, rfl⟩
  encNoHalf    := fun _ => ⟨rfl, rfl⟩
  decCount     := fun _ => Nat.zero_le 7
  errMode      := iff_of_true rfl Mode.noConfusion
  errinfoClear := fun _ => rfl
  lenFits      := rfl
  outCanonical := Memory.wf_reset
  outHolds     := fun i h => absurd h (Nat.not_lt_zero i)
  outInSpace   := fun _ _ => rfl
  alphabetWf   := show Config.default.wf by decide

/-- Settles O20: each field of the concatenation is cut out of it where R33 places it. -/
theorem statusWordFields : Obligations.StatusWordFields := by
  intro s
  refine ⟨BitVec.extractLsb'_append_eq_right, ?_, ?_, ?_, ?_, rfl, rfl, rfl, rfl, rfl, rfl, rfl, rfl,
    rfl⟩
  · rw [State.statusWord, BitVec.getLsbD_append, BitVec.getLsbD_append]
    simp
  · rw [State.statusWord, BitVec.extractLsb'_append_eq_of_le (by decide),
      BitVec.extractLsb'_append_eq_of_le (by decide)]
    exact BitVec.extractLsb'_append_eq_right
  · rw [State.statusWord, BitVec.extractLsb'_append_eq_of_le (by decide),
      BitVec.extractLsb'_append_eq_of_le (by decide), BitVec.extractLsb'_append_eq_of_le (by decide)]
    exact BitVec.extractLsb'_append_eq_right
  · rw [State.statusWord, BitVec.extractLsb'_append_eq_of_le (by decide),
      BitVec.extractLsb'_append_eq_of_le (by decide), BitVec.extractLsb'_append_eq_of_le (by decide)]
    exact BitVec.extractLsb'_append_eq_left

/-- Addresses of `HOSTREG` beyond its three registers read 0. -/
theorem State.hostReg_of_three_le (s : State) {a : Nat} (h : 3 ≤ a) : s.hostReg a = 0 := by
  match a, h with
  | a + 3, _ => rfl

/-- The host reads the byte stored at an index below `LEN`. -/
theorem State.hostOut_of_read {s : State} {i : Nat} {b : Byte} (hlen : i < s.len)
    (hread : s.out.read i = some b) : s.hostOut i = b := by
  simp [State.hostOut, hlen, hread]

/-- Settles O21: the three registers by their addresses, `OUT` below `LEN`, and no mention of `ACC`,
`V1` or `EPOCH` in either read. -/
theorem readPortReturnsTheRegisters : Obligations.ReadPortReturnsTheRegisters := fun s =>
  ⟨rfl, rfl, rfl, fun _ => s.hostReg_of_three_le, fun _ _ => State.hostOut_of_read,
    fun _ _ _ _ => ⟨rfl, rfl⟩⟩

end Sys2Proof.Machine
end

section
/-! What a command does to the output buffer (20_memory.md R52, R59): it stores nothing, appends, or
is `OUT.RESET`. -/

namespace Sys2Proof.Machine

/-- Settles O26: the store is one write of the output memory, at `LEN`. -/
theorem outAppendStoresOneByteAtLen : Obligations.OutAppendStoresOneByteAtLen := fun s b hwf =>
  ⟨s.out.read_write_same s.len b, fun _ hne => s.out.read_write_other b hne,
    Memory.wf_write s.len b hwf, rfl⟩

/-- One pass of the encoder emits a pair or nothing (41_encoder.md R134). -/
theorem encFeed_vals_length (acc : AccWord) (n : CountWord) (b : Byte) :
    (encFeed acc n b).vals.length = if n.toNat + 8 > 13 then 2 else 0 := by
  unfold encFeed
  split <;> rfl

/-- The flush emits two values, one or none (41_encoder.md R136). -/
theorem flushVals_length (acc : AccWord) (n : CountWord) :
    (flushVals acc n).length =
      if n.toNat = 0 then 0 else if n.toNat > 7 ∨ acc.toNat ≥ 91 then 2 else 1 := by
  unfold flushVals
  split
  · rfl
  · split <;> rfl

/-- A completed pair yields the whole bytes of the bits held (42_decoder.md R163). -/
theorem decFeed_bytes_length (acc : AccWord) (n : CountWord) (b : Nat) :
    (decFeed acc n b).bytes.length = (n.toNat + groupWidth b) / 8 :=
  drain_length _ _

/-- `t` answers `OK`, and its output buffer is that of `s` after `OutAppend` of `bytes`. -/
structure AppendsOk (bytes : List Byte) (s t : State) : Prop where
  ok    : ∃ d, t.resp = some (.ok d)
  out   : t.out = (s.appendAll bytes).out
  len   : t.len = s.len + bytes.length
  epoch : t.epoch = s.epoch + bytes.length

/-- `t` is what a fault of `i` makes of `s`, or `s` with as many bytes appended as `i` counts. -/
def RaisesOrAppends (i : Instr) (s t : State) : Prop :=
  (∃ x, t = s.raise x (encode i)) ∨ ∃ bytes, bytes.length = s.appendCount i ∧ AppendsOk bytes s t

/-- An emitting command whose register updates leave the output buffer alone. -/
theorem emit_raisesOrAppends {i : Instr} {bytes : List Byte} {update : State → State} {s : State}
    (hcount : bytes.length = s.appendCount i)
    (hbuffer : ∀ u, (update u).out = u.out ∧ (update u).len = u.len ∧ (update u).epoch = u.epoch) :
    RaisesOrAppends i s (emit i bytes update s) := by
  rcases emit_eq i bytes update s with ⟨-, h⟩ | ⟨-, h⟩
  · obtain ⟨hout, hlen, hepoch⟩ := hbuffer (s.appendAll bytes)
    rw [h]
    exact .inr ⟨bytes, hcount, ⟨_, rfl⟩, hout, hlen.trans (s.appendAll_len bytes),
      hepoch.trans (s.appendAll_epoch bytes)⟩
  · exact .inl ⟨_, h⟩

/-- An answer `OK` with the output buffer as it was appends nothing. -/
theorem raisesOrAppends_nil {i : Instr} {s t : State} {d : Byte} (hcount : s.appendCount i = 0)
    (hok : t.resp = some (.ok d)) (hout : t.out = s.out) (hlen : t.len = s.len)
    (hepoch : t.epoch = s.epoch) : RaisesOrAppends i s t :=
  .inr ⟨[], hcount.symm, ⟨d, hok⟩, hout, hlen, hepoch⟩

theorem completePair_raisesOrAppends {c : Byte} {d : Nat} {s : State}
    (hvalue : valueOf s.cfg c = some d) (hhalf : s.have1 = true) :
    RaisesOrAppends (.decSym c) s (s.completePair c d) := by
  have hcount : (decFeed s.acc s.n (s.v1.toNat + d * 91)).bytes.length =
      s.appendCount (.decSym c) := by
    simp [decFeed_bytes_length, groupWidth, State.appendCount, hvalue, hhalf]
  rw [State.completePair]
  exact emit_raisesOrAppends hcount fun _ => ⟨rfl, rfl, rfl⟩

theorem decSymEffect_raisesOrAppends (c : Byte) (s : State) :
    RaisesOrAppends (.decSym c) s (decSymEffect c s) := by
  unfold decSymEffect
  cases hvalue : valueOf s.cfg c with
  | none => exact .inl ⟨_, rfl⟩
  | some d =>
    cases hhalf : s.have1 with
    | false => exact raisesOrAppends_nil (by simp [State.appendCount, hhalf]) rfl rfl rfl rfl
    | true => exact completePair_raisesOrAppends hvalue hhalf

theorem tabSymEffect_raisesOrAppends (v : Byte) (s : State) :
    RaisesOrAppends (.tabSym v) s (tabSymEffect v s) := by
  unfold tabSymEffect
  split
  · exact raisesOrAppends_nil rfl rfl rfl rfl rfl
  · exact .inl ⟨_, rfl⟩

/-- The effect of every command but `OUT.RESET` is a fault, or appends the bytes it counts. -/
theorem effectOf_raisesOrAppends {i : Instr} (s : State) (hreset : i ≠ .outReset) :
    RaisesOrAppends i s (effectOf i s) := by
  cases i with
  | outReset => exact absurd rfl hreset
  | nop | encStart | decStart | tabVal _ | clr => exact raisesOrAppends_nil rfl rfl rfl rfl rfl
  | encByte b =>
    rw [effectOf, encByteEffect]
    exact emit_raisesOrAppends ((List.length_map _).trans (encFeed_vals_length s.acc s.n b)) fun _ =>
      ⟨rfl, rfl, rfl⟩
  | encEnd =>
    rw [effectOf, encEndEffect]
    exact emit_raisesOrAppends ((List.length_map _).trans (flushVals_length s.acc s.n)) fun _ =>
      ⟨rfl, rfl, rfl⟩
  | decSym c => exact decSymEffect_raisesOrAppends c s
  | decEnd =>
    have hcount : (if s.have1 then [loneByte s.acc s.n s.v1] else []).length =
        s.appendCount .decEnd := by
      cases hhalf : s.have1 <;> simp [State.appendCount, hhalf]
    rw [effectOf, decEndEffect]
    exact emit_raisesOrAppends hcount fun _ => ⟨rfl, rfl, rfl⟩
  | tabSym v => exact tabSymEffect_raisesOrAppends v s

/-- INVERSION of `exec` by the output buffer: no `OK` and the buffer as it was, `OUT.RESET`, or `OK`
and the bytes the command counts appended. -/
theorem exec_buffer_cases {i : Instr} {s t : State} (h : exec i s = .next t) :
    ((∀ d, t.resp ≠ some (.ok d)) ∧ t.out = s.out ∧ t.len = s.len ∧ t.epoch = s.epoch) ∨
    (i = .outReset ∧ t = outResetEffect s) ∨
    ∃ bytes, bytes.length = s.appendCount i ∧ AppendsOk bytes s t := by
  rcases exec_inv h with ⟨-, rfl⟩ | ⟨-, rfl⟩ | ⟨-, rfl⟩
  · by_cases hreset : i = .outReset
    · subst hreset
      exact .inr (.inl ⟨rfl, rfl⟩)
    · rcases effectOf_raisesOrAppends s hreset with ⟨x, hraise⟩ | happends
      · rw [hraise]
        exact .inl ⟨by simp, rfl, rfl, rfl⟩
      · exact .inr (.inr happends)
  · exact .inl ⟨by simp, rfl, rfl, rfl⟩
  · exact .inl ⟨by simp, rfl, rfl, rfl⟩

/-- Settles O28: only an append stores, and it leaves every address outside its own bytes alone;
`OUT.RESET` erases nothing. -/
theorem commandsStoreOnlyTheBytesTheyAppend : Obligations.CommandsStoreOnlyTheBytesTheyAppend := by
  intro i s t h
  rcases exec_buffer_cases h with ⟨-, hout, -, -⟩ | ⟨-, rfl⟩ | ⟨bytes, hcount, happends⟩
  · simp [hout]
  · exact ⟨fun _ _ => rfl, fun _ _ => rfl⟩
  · obtain ⟨d, hok⟩ := happends.ok
    refine ⟨fun a ha => ?_, fun hstop => absurd hok (hstop d)⟩
    rw [happends.out]
    exact s.appendAll_read_other bytes a (hcount ▸ ha)

theorem mode_of_decSym_executes {c : Byte} {m : Mode} (h : legality (.decSym c) m = .executes) :
    m = .dec := by
  cases m with
  | dec => rfl
  | idle | enc | fault => cases h

/-- With at most 7 bits held a pair completes at most two bytes (42_decoder.md R166). -/
theorem State.appendCount_decSym_le (s : State) (c : Byte) (h : s.n.toNat ≤ 7) :
    s.appendCount (.decSym c) ≤ 2 := by
  rw [State.appendCount]
  split
  · split <;> omega
  · omega

/-- Settles O30: the count is that of the bytes appended, with an `OK` response; the bounds are those
of the counts, the decoder's by item 5 of the invariant. -/
theorem appendsAreAllOrNothing : Obligations.AppendsAreAllOrNothing := by
  intro i s t hinv h
  refine ⟨fun ⟨d, hok⟩ hreset => ?_, fun hstop => ?_, fun hlegal => ⟨?_, ?_, ?_, ?_⟩⟩
  · rcases exec_buffer_cases h with ⟨hstop, -⟩ | ⟨rfl, -⟩ | ⟨bytes, hcount, happends⟩
    · exact absurd hok (hstop d)
    · exact absurd rfl hreset
    · exact hcount ▸ happends.len
  · rcases exec_buffer_cases h with ⟨-, -, hlen, -⟩ | ⟨-, rfl⟩ | ⟨bytes, -, happends⟩
    · exact hlen
    · exact absurd rfl (hstop 0)
    · obtain ⟨d, hok⟩ := happends.ok
      exact absurd hok (hstop d)
  · rintro ⟨b, rfl⟩
    rw [State.appendCount]
    split <;> simp
  · rintro rfl
    rw [State.appendCount]
    split
    · omega
    · split <;> omega
  · rintro ⟨c, rfl, -⟩
    exact s.appendCount_decSym_le c (hinv.decCount (mode_of_decSym_executes hlegal))
  · rintro rfl
    rw [State.appendCount]
    split <;> omega

end Sys2Proof.Machine
end

section
/-! What a sequence of commands keeps of the output buffer (20_memory.md R61, 10_state.md R36). -/

namespace Sys2Proof.Machine

theorem execAll_cons_of_next {i : Instr} {s u : State} (rest : List Instr)
    (h : exec i s = .next u) : execAll (i :: rest) s = execAll rest u := by
  rw [execAll, h]

/-- A sequence passes through the state its first command answers. -/
theorem execAll_cons_inv {i : Instr} {rest : List Instr} {s t : State}
    (h : execAll (i :: rest) s = .next t) : ∃ u, exec i s = .next u ∧ execAll rest u = .next t := by
  obtain ⟨u, hu⟩ := exec_answers i s
  exact ⟨u, hu, execAll_cons_of_next rest hu ▸ h⟩

/-- A reflexive and transitive relation that every command of a sequence keeps holds from its start
to its end. -/
theorem execAll_relates {R : State → State → Prop} (hrefl : ∀ s, R s s)
    (htrans : ∀ s u t, R s u → R u t → R s t) {cmds : List Instr}
    (hexec : ∀ i ∈ cmds, ∀ s t, exec i s = .next t → R s t) {s t : State}
    (h : execAll cmds s = .next t) : R s t := by
  induction cmds generalizing s with
  | nil => cases h; exact hrefl _
  | cons i rest ih =>
    obtain ⟨u, hu, hrest⟩ := execAll_cons_inv h
    exact htrans s u t (hexec i List.mem_cons_self s u hu)
      (ih (fun j hj => hexec j (List.mem_cons_of_mem i hj)) hrest)

/-- `LEN` has not fallen, and the bytes below the old `LEN` read as before. -/
def KeepsAppended (s t : State) : Prop :=
  s.len ≤ t.len ∧ ∀ a < s.len, t.out.read a = s.out.read a

theorem KeepsAppended.trans {s u t : State} (hsu : KeepsAppended s u) (hut : KeepsAppended u t) :
    KeepsAppended s t := by
  obtain ⟨hlen, hread⟩ := hsu
  obtain ⟨hlen', hread'⟩ := hut
  exact ⟨hlen.trans hlen', fun a ha => (hread' a (by omega)).trans (hread a ha)⟩

theorem AppendsOk.keepsAppended {bytes : List Byte} {s t : State} (h : AppendsOk bytes s t) :
    KeepsAppended s t := by
  refine ⟨by rw [h.len]; omega, fun a ha => ?_⟩
  rw [h.out]
  exact s.appendAll_read_other bytes a (.inl ha)

/-- Settles O31: every command but `OUT.RESET` leaves the buffer as it was or appends to it. -/
theorem appendedBytesNeverChange : Obligations.AppendedBytesNeverChange := by
  intro cmds s t hreset
  refine execAll_relates (R := KeepsAppended) (fun s => ⟨le_rfl, fun _ _ => rfl⟩)
    (fun _ _ _ => .trans) fun i hi s t h => ?_
  rcases exec_buffer_cases h with ⟨-, hout, hlen, -⟩ | ⟨rfl, -⟩ | ⟨bytes, -, happends⟩
  · exact ⟨hlen.ge, fun a _ => by rw [hout]⟩
  · exact absurd hi hreset
  · exact happends.keepsAppended

/-- `EPOCH` has not fallen, and if it is the same, `LEN` and the bytes below it are too. -/
def EpochGuardsOutput (s t : State) : Prop :=
  s.epoch ≤ t.epoch ∧
  (t.epoch = s.epoch → t.len = s.len ∧ ∀ a < s.len, t.out.read a = s.out.read a)

theorem EpochGuardsOutput.trans {s u t : State} (hsu : EpochGuardsOutput s u)
    (hut : EpochGuardsOutput u t) : EpochGuardsOutput s t := by
  obtain ⟨hepoch, hsame⟩ := hsu
  obtain ⟨hepoch', hsame'⟩ := hut
  refine ⟨hepoch.trans hepoch', fun heq => ?_⟩
  obtain ⟨hlen, hread⟩ := hsame (by omega)
  obtain ⟨hlen', hread'⟩ := hsame' (by omega)
  exact ⟨hlen'.trans hlen, fun a ha => (hread' a (hlen ▸ ha)).trans (hread a ha)⟩

/-- Settles O19: `OUT.RESET` and every byte appended raise `EPOCH`; nothing else writes the buffer. -/
theorem sameEpochSameOutput : Obligations.SameEpochSameOutput := by
  intro cmds s t
  refine execAll_relates (R := EpochGuardsOutput)
    (fun s => ⟨le_rfl, fun _ => ⟨rfl, fun _ _ => rfl⟩⟩) (fun _ _ _ => .trans) fun i _ s t h => ?_
  rcases exec_buffer_cases h with ⟨-, hout, hlen, hepoch⟩ | ⟨-, rfl⟩ | ⟨bytes, -, happends⟩
  · exact ⟨hepoch.ge, fun _ => ⟨hlen, fun a _ => by rw [hout]⟩⟩
  · exact ⟨Nat.le_succ _, fun heq => absurd heq (Nat.succ_ne_self _)⟩
  · have hlen := happends.len
    have hepoch := happends.epoch
    exact ⟨by omega, fun heq => ⟨by omega, happends.keepsAppended.2⟩⟩

end Sys2Proof.Machine
end

section
/-! Presented words run as their commands: no command reads the input or the tick (20_memory.md
R63). -/

namespace Sys2Proof

/-- Decoding the word of a well-formed command gives the command (30_encoding.md R83, R84). -/
theorem decode_encode {i : Instr} (h : i.wellFormed = true) : decode (encode i) = .legal i := by
  rw [encode, decode_append]
  cases i with
  | tabSym v => exact if_pos (of_decide_eq_true h)
  | nop | encStart | encByte _ | encEnd | decStart | decSym _ | decEnd | outReset | tabVal _ | clr =>
    rfl

end Sys2Proof

namespace Sys2Proof.Machine

/-- `s` with other events presented and another tick, the two fields that are the host's side. -/
def State.withStream (input : List HostEvent) (tick : Nat) (s : State) : State :=
  { s with input := input, tick := tick }

section Stream
variable (input : List HostEvent) (tick : Nat)

theorem State.appendAll_withStream (bytes : List Byte) (s : State) :
    (s.withStream input tick).appendAll bytes = (s.appendAll bytes).withStream input tick := by
  induction bytes generalizing s with
  | nil => rfl
  | cons b rest ih => exact ih (s.appendByte b)

theorem emit_withStream {i : Instr} {bytes : List Byte} {update : State → State} {s : State}
    (hupdate : ∀ u, update (u.withStream input tick) = (update u).withStream input tick) :
    emit i bytes update (s.withStream input tick) =
      (emit i bytes update s).withStream input tick := by
  have hroom : (s.withStream input tick).hasRoom bytes.length = s.hasRoom bytes.length := rfl
  rw [emit, emit, hroom, State.appendAll_withStream, hupdate]
  split <;> rfl

theorem completePair_withStream (c : Byte) (d : Nat) (s : State) :
    (s.withStream input tick).completePair c d =
      (s.completePair c d).withStream input tick := by
  rw [State.completePair, State.completePair]
  exact emit_withStream input tick fun _ => rfl

theorem decSymEffect_withStream (c : Byte) (s : State) :
    decSymEffect c (s.withStream input tick) = (decSymEffect c s).withStream input tick := by
  have hcfg : (s.withStream input tick).cfg = s.cfg := rfl
  have hhalf : (s.withStream input tick).have1 = s.have1 := rfl
  rw [decSymEffect, decSymEffect, hcfg, hhalf]
  cases valueOf s.cfg c with
  | none => rfl
  | some d =>
    cases s.have1 with
    | false => rfl
    | true => exact completePair_withStream input tick c d s

theorem tabSymEffect_withStream (v : Byte) (s : State) :
    tabSymEffect v (s.withStream input tick) = (tabSymEffect v s).withStream input tick := by
  rw [tabSymEffect, tabSymEffect]
  split <;> rfl

/-- The effect of a command neither reads nor writes the input and the tick. -/
theorem effectOf_withStream (i : Instr) (s : State) :
    effectOf i (s.withStream input tick) = (effectOf i s).withStream input tick := by
  cases i with
  | nop | encStart | decStart | outReset | tabVal _ | clr => rfl
  | encByte b =>
    rw [effectOf, encByteEffect, encByteEffect]
    exact emit_withStream input tick fun _ => rfl
  | encEnd =>
    rw [effectOf, encEndEffect, encEndEffect]
    exact emit_withStream input tick fun _ => rfl
  | decEnd =>
    rw [effectOf, decEndEffect, decEndEffect]
    exact emit_withStream input tick fun _ => rfl
  | decSym c => exact decSymEffect_withStream input tick c s
  | tabSym v => exact tabSymEffect_withStream input tick v s

/-- A command answers the same whatever is presented after it and whatever the tick. -/
theorem exec_withStream {i : Instr} {s t : State} (h : exec i s = .next t) :
    exec i (s.withStream input tick) = .next (t.withStream input tick) := by
  have hmode : (s.withStream input tick).mode = s.mode := rfl
  rw [exec_eq_gate, gate, hmode, effectOf_withStream]
  rcases exec_inv h with ⟨hlegal, rfl⟩ | ⟨hlegal, rfl⟩ | ⟨hlegal, rfl⟩ <;> rw [hlegal] <;> rfl

/-- A step on the word of a well-formed command is the command, and the tick advances. -/
theorem step_encode {i : Instr} {s u : State} (hwf : i.wellFormed = true)
    (h : exec i s = .next u) :
    step (s.withStream (.command (encode i) :: input) tick) =
      .next (u.withStream input (tick + 1)) :=
  calc step (s.withStream (.command (encode i) :: input) tick)
    _ = accept (encode i) (s.withStream input (tick + 1)) := step_command rfl
    _ = exec i (s.withStream input (tick + 1)) := accept_of_legal (decode_encode hwf) _
    _ = .next (u.withStream input (tick + 1)) := exec_withStream input (tick + 1) h

/-- The machine presented with the words of `cmds` ends where `execAll` does, from any tick. -/
theorem runSteps_encode {cmds : List Instr} {s t : State}
    (hwf : ∀ i ∈ cmds, i.wellFormed = true) (h : execAll cmds s = .next t) :
    runSteps cmds.length (s.withStream (cmds.map fun i => .command (encode i)) tick) =
      .next (t.withStream [] (tick + cmds.length)) := by
  induction cmds generalizing s tick with
  | nil => cases h; rfl
  | cons i rest ih =>
    obtain ⟨hi, hrest⟩ := List.forall_mem_cons.1 hwf
    obtain ⟨u, hu, ht⟩ := execAll_cons_inv h
    rw [List.length_cons, List.map_cons, runSteps_succ_of_next _ (step_encode _ tick hi hu),
      ih (tick + 1) hrest ht, Nat.add_right_comm, Nat.add_assoc]

end Stream

/-- Settles O9: the run from the tick of `s`. -/
theorem runOfPresentedWordsIsTheCommandSequence :
    Obligations.RunOfPresentedWordsIsTheCommandSequence := fun _ s _ hwf h =>
  runSteps_encode s.tick hwf h

end Sys2Proof.Machine
end

section
/-! The command words (30_encoding.md R80 to R84): a legal word is its command's opcode and an
operand that the opcode admits. -/

namespace Sys2Proof

/-- Settles O1: each word's two fields, looked up in the map. -/
theorem tabledWordsDecodeToTheirCommands : Obligations.TabledWordsDecodeToTheirCommands := by
  unfold Obligations.TabledWordsDecodeToTheirCommands
  decide

/-- Settles O2: the word of a command has its opcode and its operand for fields. -/
theorem decodeOfEncodeIsTheCommand : Obligations.DecodeOfEncodeIsTheCommand := fun _ =>
  decode_encode

/-- What a word's fields are when it decodes to `i`. -/
structure SpelledBy (op : BitVec 4) (imm : Byte) (i : Instr) : Prop where
  op_eq : opcode i = op
  imm_eq : operand i = imm
  wf : i.wellFormed = true

theorem SpelledBy.of_noOperand {op : BitVec 4} {imm : Byte} {i j : Instr}
    (h : noOperand j imm = .legal i) (hop : op.toNat = (opcode j).toNat) (hbare : operand j = 0)
    (hwf : j.wellFormed = true) : SpelledBy op imm i := by
  obtain ⟨rfl, rfl⟩ := noOperand_eq_legal h
  exact ⟨(BitVec.eq_of_toNat_eq hop).symm, hbare, hwf⟩

/-- INVERSION of the decoder: the fields of a legal word are those of its command (30_encoding.md
R83). -/
theorem spelledBy_of_decode {op : BitVec 4} {imm : Byte} {i : Instr}
    (h : decode (op ++ imm) = .legal i) : SpelledBy op imm i := by
  rw [decode_append] at h
  split at h
  case h_1 hop | h_2 hop | h_4 hop | h_5 hop | h_7 hop | h_8 hop | h_11 hop =>
    exact .of_noOperand h hop rfl rfl
  case h_3 hop | h_6 hop | h_10 hop =>
    cases h
    exact ⟨(BitVec.eq_of_toNat_eq hop).symm, rfl, rfl⟩
  case h_9 hop =>
    split at h
    case isTrue hvalue =>
      cases h
      exact ⟨(BitVec.eq_of_toNat_eq hop).symm, rfl, decide_eq_true hvalue⟩
    case isFalse => cases h
  case h_12 => cases h

theorem encode_of_decode {w : CmdWord} {i : Instr} (h : decode w = .legal i) :
    encode i = w ∧ i.wellFormed = true := by
  rw [← fields_append w] at h ⊢
  obtain ⟨hop, himm, hwf⟩ := spelledBy_of_decode h
  exact ⟨by rw [encode, hop, himm], hwf⟩

/-- Settles O3: the word is its two fields, and these are the command's. -/
theorem legalWordIsTheWordOfItsCommand : Obligations.LegalWordIsTheWordOfItsCommand := fun _ _ =>
  encode_of_decode

/-- The operands an opcode admits, what 30_encoding.md R84 leaves legal: any where the operand is a
byte or a character code, 0 where there is none, 0..90 for `TAB.SYM`. -/
abbrev Admits (op : BitVec 4) (imm : Byte) : Prop :=
  op.toNat ∈ [0x2, 0x5, 0x9] ∨ (op.toNat ∈ [0x0, 0x1, 0x3, 0x4, 0x6, 0x7, 0xA] ∧ imm = 0) ∨
  (op.toNat = 0x8 ∧ imm.toNat ≤ 90)

theorem noOperand_legal_iff (i : Instr) (imm : Byte) :
    (∃ j, noOperand i imm = .legal j) ↔ imm = 0 := by
  unfold noOperand
  split <;> simp_all

/-- A word is legal exactly when its opcode admits its operand (30_encoding.md R84). -/
theorem decode_legal_iff (op : BitVec 4) (imm : Byte) :
    (∃ i, decode (op ++ imm) = .legal i) ↔ Admits op imm := by
  rw [decode_append]
  split
  case h_1 hop | h_2 hop | h_4 hop | h_5 hop | h_7 hop | h_8 hop | h_11 hop =>
    rw [noOperand_legal_iff]
    simp [Admits, hop]
  case h_3 hop | h_6 hop | h_10 hop => simp [Admits, hop]
  case h_9 hop => split <;> simp_all [Admits]
  case h_12 => simp_all [Admits]

/-- The operand bits in the mask of a command's row: all where the operand must be 0. -/
def operandMask (i : Instr) : Byte :=
  match i with
  | .encByte _ | .decSym _ | .tabSym _ | .tabVal _ => 0x00
  | .nop | .encStart | .encEnd | .decStart | .decEnd | .outReset | .clr => 0xFF

theorem matchMask_eq (i : Instr) : matchMask i = (opcode i ++ 0x00#8, 0xF#4 ++ operandMask i) := by
  cases i <;> simp [matchMask, opcode, operandMask]

theorem append_eq_append_iff {op op' : BitVec 4} {imm imm' : Byte} :
    op ++ imm = op' ++ imm' ↔ op = op' ∧ imm = imm' := by
  refine ⟨fun h => ?_, fun ⟨hop, himm⟩ => by rw [hop, himm]⟩
  obtain ⟨hop, himm⟩ := Laws.EncodedFields.of_append op imm
  obtain ⟨hop', himm'⟩ := Laws.EncodedFields.of_append op' imm'
  exact ⟨by rw [← hop, h, hop'], by rw [← himm, h, himm']⟩

/-- A word matches the row of `j` when it has the opcode of `j` and no operand bit of the mask. -/
theorem and_mask_eq_match_iff (op : BitVec 4) (imm : Byte) (j : Instr) :
    (op ++ imm) &&& (matchMask j).2 = (matchMask j).1 ↔
      op = opcode j ∧ imm &&& operandMask j = 0#8 := by
  have hall : op &&& 0xF#4 = op := BitVec.and_allOnes
  rw [matchMask_eq, BitVec.and_append, append_eq_append_iff, hall]

/-- The operands the opcode of `j` admits are those its row of 30_encoding.md R83 matches. -/
theorem admits_opcode_iff (j : Instr) (imm : Byte) :
    Admits (opcode j) imm ↔
      imm &&& operandMask j = 0#8 ∧ ∀ v, j = .tabSym v → imm.toNat ≤ 90 := by
  have hall : imm &&& 0xFF#8 = imm := BitVec.and_allOnes
  cases j <;> simp [Admits, opcode, operandMask, hall]

/-- Settles O4: both sides say that the word has the opcode of the row and an operand it admits. -/
theorem matchAndMaskSayWhichCommandAWordSpells :
    Obligations.MatchAndMaskSayWhichCommandAWordSpells := by
  intro w j
  change (w &&& _ = _ ∧ ∀ v, j = .tabSym v → (immField w).toNat ≤ 90) ↔ _
  obtain ⟨op, imm, rfl⟩ : ∃ op imm, w = op ++ imm := ⟨_, _, (fields_append w).symm⟩
  rw [(Laws.EncodedFields.of_append op imm).2, and_mask_eq_match_iff, and_assoc,
    ← admits_opcode_iff, ← decode_legal_iff]
  constructor
  · rintro ⟨rfl, i, h⟩
    exact ⟨i, h, (spelledBy_of_decode h).op_eq⟩
  · rintro ⟨i, h, hop⟩
    obtain rfl : op = opcode j := (spelledBy_of_decode h).op_eq.symm.trans hop
    exact ⟨rfl, i, h⟩

/-- Decode is total: a word that is no command is illegal (30_encoding.md R84). -/
theorem decode_illegal_iff_not_legal (w : CmdWord) :
    (∃ why, decode w = .illegal why) ↔ ¬ ∃ i, decode w = .legal i := by
  cases decode w <;> simp

/-- The illegal words by their fields: the operands an opcode excludes are the three classes of
30_encoding.md R84. -/
theorem not_admits_iff (op : BitVec 4) (imm : Byte) :
    ¬ Admits op imm ↔
      0xB ≤ op.toNat ∨ (op.toNat ∈ [0x0, 0x1, 0x3, 0x4, 0x6, 0x7, 0xA] ∧ imm ≠ 0) ∨
      (op.toNat = 0x8 ∧ 90 < imm.toNat) := by
  have hop := op.isLt
  have himm : imm = 0 ↔ imm.toNat = 0 := BitVec.toNat_eq
  simp only [Admits, List.mem_cons, List.not_mem_nil, or_false, ne_eq, himm]
  omega

/-- How many operands an opcode admits (30_encoding.md R84). -/
def admittedCount (op : Nat) : Nat :=
  if op ∈ [0x2, 0x5, 0x9] then 256
  else if op = 0x8 then 91
  else if op ∈ [0x0, 0x1, 0x3, 0x4, 0x6, 0x7, 0xA] then 1 else 0

theorem count_zero_operand : Nat.count (fun k => BitVec.ofNat 8 k = 0) (255 + 1) = 1 := by
  have hrest : Nat.count (fun k => BitVec.ofNat 8 (k + 1) = 0) 255 = 0 :=
    Nat.count_of_forall_not fun k hk h => by
      have := congrArg BitVec.toNat h
      simp at this
      omega
  rw [Nat.count_succ', hrest]
  rfl

theorem count_value_operand :
    Nat.count (fun k => (BitVec.ofNat 8 k).toNat ≤ 90) (91 + 165) = 91 := by
  have hvalues : Nat.count (fun k => (BitVec.ofNat 8 k).toNat ≤ 90) 91 = 91 :=
    Nat.count_of_forall fun k hk => by simp; omega
  have hrest : Nat.count (fun k => (BitVec.ofNat 8 (91 + k)).toNat ≤ 90) 165 = 0 :=
    Nat.count_of_forall_not fun k hk => by simp; omega
  rw [Nat.count_add, hvalues, hrest]

theorem count_admits (op : BitVec 4) :
    Nat.count (fun k => Admits op (.ofNat 8 k)) 256 = admittedCount op.toNat := by
  unfold admittedCount
  split_ifs with hany hvalue hbare
  · exact Nat.count_of_forall fun k _ => .inl hany
  · exact (List.countP_congr fun k _ => by simp [Admits, hvalue]).trans count_value_operand
  · exact (List.countP_congr fun k _ => by simp [Admits, hany, hvalue, hbare]).trans
      count_zero_operand
  · exact Nat.count_of_forall_not fun k _ => by simp [Admits, hany, hvalue, hbare]

theorem instr?_isSome_iff (d : Decoded) : d.instr?.isSome = true ↔ ∃ i, d = .legal i := by
  cases d <;> simp [Decoded.instr?]

/-- The words of one opcode that are legal. -/
theorem count_legal_of_opcode (op : BitVec 4) :
    (List.range 256).countP (fun k => (decode (op ++ BitVec.ofNat 8 k)).instr?.isSome) =
      admittedCount op.toNat :=
  calc _ = Nat.count (fun k => Admits op (.ofNat 8 k)) 256 := List.countP_congr fun k _ => by
        rw [instr?_isSome_iff, decode_legal_iff, decide_eq_true_iff]
    _ = admittedCount op.toNat := count_admits op

/-- Counting below `m * n` block by block. -/
theorem countP_range_mul (p : Nat → Bool) (m n : Nat) :
    (List.range (m * n)).countP p =
      ∑ a ∈ Finset.range m, (List.range n).countP fun k => p (a * n + k) := by
  induction m with
  | zero => simp
  | succ m ih =>
    rw [Nat.succ_mul, List.range_add, List.countP_append, ih, Finset.sum_range_succ,
      List.countP_map]
    rfl

/-- The fields of a word from its number: 256 numbers to an opcode. -/
theorem ofNat_eq_append {a k : Nat} (hk : k < 256) :
    BitVec.ofNat 12 (a * 256 + k) = BitVec.ofNat 4 a ++ BitVec.ofNat 8 k := by
  apply BitVec.eq_of_toNat_eq
  rw [BitVec.toNat_append, BitVec.toNat_ofNat, BitVec.toNat_ofNat, BitVec.toNat_ofNat,
    ← Nat.shiftLeft_add_eq_or_of_lt (Nat.mod_lt _ (by decide)), Nat.shiftLeft_eq]
  omega

theorem count_legal_words :
    ((List.range 4096).filter fun k => (decode (BitVec.ofNat 12 k)).instr?.isSome).length =
      866 := by
  have hblock : ∀ a ∈ Finset.range 16, (List.range 256).countP
      (fun k => (decode (BitVec.ofNat 12 (a * 256 + k))).instr?.isSome) = admittedCount a := by
    intro a ha
    have hop : (BitVec.ofNat 4 a).toNat = a := Nat.mod_eq_of_lt (Finset.mem_range.1 ha)
    rw [← congrArg admittedCount hop, ← count_legal_of_opcode]
    refine List.countP_congr fun k hk => ?_
    rw [ofNat_eq_append (List.mem_range.1 hk)]
  rw [← List.countP_eq_length_filter, countP_range_mul _ 16 256, Finset.sum_congr rfl hblock]
  rfl

end Sys2Proof

namespace Sys2Proof.Machine

theorem accept_illegal_outcome {w : CmdWord} {why : IllegalWord} (h : decode w = .illegal why)
    (s : State) :
    (s.mode ≠ .fault → FaultsWith .illegalCommand w s (accept w s)) ∧
    (s.mode = .fault → RefusedAt s (accept w s)) := by
  rw [accept_of_illegal h]
  rcases s.illegalWord_eq w with ⟨hmode, heq⟩ | ⟨hmode, heq⟩
  · exact ⟨fun _ => congrArg _ heq, fun hfault => absurd hfault hmode⟩
  · exact ⟨fun hne => absurd hmode hne, fun _ => congrArg _ heq⟩

/-- Settles O5: the illegal words are those whose opcode excludes the operand; the legal ones are
counted opcode by opcode. -/
theorem reservedWordsAreIllegal : Obligations.ReservedWordsAreIllegal := by
  refine ⟨fun w => ?_, count_legal_words, fun w why s h => accept_illegal_outcome h s⟩
  rw [decode_illegal_iff_not_legal]
  conv => lhs; rw [← fields_append w, decode_legal_iff]
  exact not_admits_iff (opField w) (immField w)

/-- Settles O22: every response word is a status put before its data. -/
theorem responseWordFields : Obligations.ResponseWordFields :=
  ⟨fun d => Laws.EncodedFields.of_append 0 d,
    fun x => Laws.EncodedFields.of_append (x.code.setWidth 4) 0,
    fun x => Laws.EncodedFields.of_append 15 (x.code.setWidth 8)⟩

end Sys2Proof.Machine
end

section
/-! The order of the checks on a word (30_encoding.md R88, R89). -/

namespace Sys2Proof.Machine

/-- The cells `P` of the matrix (30_encoding.md R88). -/
theorem legality_protocolError_iff (i : Instr) (m : Mode) :
    legality i m = .protocolError ↔ RaisesProtocolError i m := by
  cases i <;> cases m <;> simp [legality, legalityRow, RaisesProtocolError]

theorem exec_of_protocolError {i : Instr} {s : State} (h : legality i s.mode = .protocolError) :
    exec i s = .next (s.raise .protocolError (encode i)) := by
  rw [exec_eq_gate, gate, h]

theorem exec_of_refused {i : Instr} {s : State} (h : legality i s.mode = .refused) :
    exec i s = .next s.refuse := by
  rw [exec_eq_gate, gate, h]

/-- Lines 4 to 6 of 30_encoding.md R89: all the effect of a command can be. -/
inductive EffectIs (i : Instr) (s : State) : State → Prop
  /-- Line 4. -/
  | invalidSymbol {c : Byte} (hcmd : i = .decSym c) (hmiss : valueOf s.cfg c = none) :
      EffectIs i s (s.raise .invalidSymbol (encode i))
  /-- Only a term that is no word's command (40_alphabet_table.md R116, log entry 13). -/
  | illFormed (hwf : i.wellFormed = false) : EffectIs i s (s.raise .illegalCommand (encode i))
  /-- Line 5. -/
  | outOfMemory (hroom : s.hasRoom (s.appendCount i) = false) :
      EffectIs i s (s.raise .outOfMemory (encode i))
  /-- Line 6. -/
  | answered {t : State} (hroom : s.hasRoom (s.appendCount i) = true)
      (hok : t.resp = some (.ok (s.okData i))) : EffectIs i s t

/-- A command that emits the bytes it counts, and answers with their number. -/
theorem emit_effectIs {i : Instr} {bytes : List Byte} {update : State → State} {s : State}
    (hcount : bytes.length = s.appendCount i)
    (hdata : s.okData i = BitVec.ofNat 8 (s.appendCount i)) :
    EffectIs i s (emit i bytes update s) := by
  rcases emit_eq i bytes update s with ⟨hroom, h⟩ | ⟨hroom, h⟩
  · rw [h, hcount, ← hdata]
    exact .answered (hcount ▸ hroom) rfl
  · rw [h]
    exact .outOfMemory (hcount ▸ hroom)

theorem completePair_effectIs {c : Byte} {d : Nat} {s : State} (hvalue : valueOf s.cfg c = some d)
    (hhalf : s.have1 = true) : EffectIs (.decSym c) s (s.completePair c d) := by
  rw [State.completePair]
  refine emit_effectIs ?_ rfl
  simp [decFeed_bytes_length, groupWidth, State.appendCount, hvalue, hhalf]

theorem decSymEffect_of_miss {c : Byte} {s : State} (h : valueOf s.cfg c = none) :
    decSymEffect c s = s.raise .invalidSymbol (encode (.decSym c)) := by
  rw [decSymEffect, h]

theorem decSymEffect_effectIs (c : Byte) (s : State) :
    EffectIs (.decSym c) s (decSymEffect c s) := by
  cases hvalue : valueOf s.cfg c with
  | none =>
    rw [decSymEffect_of_miss hvalue]
    exact .invalidSymbol rfl hvalue
  | some d =>
    rw [decSymEffect, hvalue]
    cases hhalf : s.have1 with
    | false =>
      have hcount : s.appendCount (.decSym c) = 0 := by simp [State.appendCount, hhalf]
      exact .answered (hcount ▸ s.hasRoom_zero) (by simp [State.okData, hcount, State.holdHalf])
    | true => exact completePair_effectIs hvalue hhalf

theorem tabSymEffect_effectIs (v : Byte) (s : State) :
    EffectIs (.tabSym v) s (tabSymEffect v s) := by
  unfold tabSymEffect
  split
  case isTrue => exact .answered rfl rfl
  case isFalse h => exact .illFormed (decide_eq_false h)

theorem tabValEffect_effectIs (c : Byte) (s : State) :
    EffectIs (.tabVal c) s (tabValEffect c s) := by
  refine .answered rfl ?_
  rw [tabValEffect, State.okData]
  cases valueOf s.cfg c <;> rfl

theorem effectOf_effectIs (i : Instr) (s : State) : EffectIs i s (effectOf i s) := by
  cases i with
  | nop | encStart | decStart | outReset | clr => exact .answered rfl rfl
  | encByte b =>
    rw [effectOf, encByteEffect]
    exact emit_effectIs ((List.length_map _).trans (encFeed_vals_length s.acc s.n b)) rfl
  | encEnd =>
    rw [effectOf, encEndEffect]
    exact emit_effectIs ((List.length_map _).trans (flushVals_length s.acc s.n)) rfl
  | decSym c => exact decSymEffect_effectIs c s
  | decEnd =>
    rw [effectOf, decEndEffect]
    refine emit_effectIs ?_ rfl
    cases hhalf : s.have1 <;> simp [State.appendCount, hhalf]
  | tabSym v => exact tabSymEffect_effectIs v s
  | tabVal c => exact tabValEffect_effectIs c s

/-- No effect answers `ProtocolError` or `Refused`. -/
theorem EffectIs.resp_ne {i : Instr} {s t : State} (h : EffectIs i s t) :
    t.resp ≠ some (.fault .protocolError) ∧ ∀ e, t.resp ≠ some (.refused e) := by
  cases h with
  | invalidSymbol | illFormed | outOfMemory => simp
  | answered _ hok => simp [hok]

theorem executes_iff (i : Instr) (m : Mode) :
    legality i m = .executes ↔ legality i m ≠ .protocolError ∧ legality i m ≠ .refused := by
  cases legality i m <;> simp

/-- Settles O8: the gate of each cell of the matrix, and in a cell `x` the effect. -/
theorem legalityMatrixByMode : Obligations.LegalityMatrixByMode := by
  refine ⟨fun i s => ⟨fun hfault hclr => ?_, fun hcell => ?_, fun hcell hfault => ?_⟩,
    fun w why s h => accept_illegal_outcome h s⟩
  · exact exec_of_refused ((legality_refused_iff i s.mode).2 ⟨hfault, hclr⟩)
  · exact exec_of_protocolError ((legality_protocolError_iff i s.mode).2 hcell)
  · have hlegal : legality i s.mode = .executes := (executes_iff i s.mode).2
      ⟨fun h => hcell ((legality_protocolError_iff i s.mode).1 h), fun h =>
        have ⟨hmode, hclr⟩ := (legality_refused_iff i s.mode).1 h
        hclr (hfault hmode)⟩
    exact ⟨_, exec_of_executes hlegal, (effectOf_effectIs i s).resp_ne⟩

/-- In mode `FAULT` every word but that of `CLR` is refused (60_exceptions.md R235). -/
theorem accept_of_fault {w : CmdWord} {s : State} (hfault : s.mode = .fault) (hw : w ≠ 0xA00) :
    accept w s = .next s.refuse := by
  cases hdecode : decode w with
  | illegal why => exact (accept_illegal_outcome hdecode s).2 hfault
  | legal i =>
    have hclr : i ≠ .clr := by
      rintro rfl
      exact hw (encode_of_decode hdecode).1.symm
    rw [accept_of_legal hdecode]
    exact exec_of_refused ((legality_refused_iff i s.mode).2 ⟨hfault, hclr⟩)

/-- Where `LEN` is within `OUT_CAP`, room for `k` bytes is what line 5 of 30_encoding.md R89 asks,
for `k = 0` too (log entry 11). -/
theorem State.hasRoom_eq_fits {s : State} (hlen : s.cfg.fits s.len = true) (k : Nat) :
    s.hasRoom k = s.cfg.fits (s.len + k) := by
  rcases Nat.eq_zero_or_pos k with rfl | hk
  · exact hlen.symm
  · exact s.hasRoom_pos hk

/-- Lines 5 and 6 of 30_encoding.md R89. -/
theorem EffectIs.of_wellFormed_of_hit {i : Instr} {s t : State} (h : EffectIs i s t)
    (hwf : i.wellFormed = true) (hhit : ∀ c, i = .decSym c → valueOf s.cfg c ≠ none) :
    (s.hasRoom (s.appendCount i) = false → t = s.raise .outOfMemory (encode i)) ∧
    (s.hasRoom (s.appendCount i) = true → t.resp = some (.ok (s.okData i))) := by
  cases h with
  | invalidSymbol hcmd hmiss => exact absurd hmiss (hhit _ hcmd)
  | illFormed hill => exact absurd hwf (by simp [hill])
  | outOfMemory hroom => simp [hroom]
  | answered hroom hok => simp [hroom, hok]

/-- `CLR` has one word (30_encoding.md R83). -/
theorem decode_legal_clr_iff (w : CmdWord) : decode w = .legal .clr ↔ w = 0xA00 := by
  refine ⟨fun h => (encode_of_decode h).1.symm, ?_⟩
  rintro rfl
  rfl

/-- A word past line 1 of 30_encoding.md R89 is no word to be refused. -/
theorem not_refused_of_decode {w : CmdWord} {i : Instr} {m : Mode} (h : decode w = .legal i)
    (hline1 : ¬ (m = .fault ∧ w ≠ 0xA00)) : legality i m ≠ .refused := by
  intro hrefused
  obtain ⟨hfault, hclr⟩ := (legality_refused_iff i m).1 hrefused
  refine hline1 ⟨hfault, fun hw => hclr ?_⟩
  rw [(decode_legal_clr_iff w).2 hw] at h
  cases h
  rfl

theorem not_fault_of_illegal {w : CmdWord} {why : IllegalWord} {m : Mode}
    (h : decode w = .illegal why) (hline1 : ¬ (m = .fault ∧ w ≠ 0xA00)) : m ≠ .fault := by
  refine fun hfault => hline1 ⟨hfault, fun hw => ?_⟩
  rw [(decode_legal_clr_iff w).2 hw] at h
  cases h

/-- Settles O7: lines 1 and 2 are the port's, line 3 is the gate's, and lines 4 to 6 are the
effect's, which raises `InvalidSymbol` before it asks for room. -/
theorem stepChecksInTheFixedOrder : Obligations.StepChecksInTheFixedOrder := by
  intro s u w rest hinput hlen hu
  have hstep : step s = accept w u := by rw [step_command hinput, hu, State.take]
  replace hlen : u.cfg.fits u.len = true := by rw [hu]; exact hlen
  rw [hstep]
  refine ⟨fun ⟨hfault, hw⟩ => accept_of_fault hfault hw,
    fun hline1 => ⟨fun why h => ?_, fun i h => ?_⟩⟩
  · exact (accept_illegal_outcome h u).1 (not_fault_of_illegal h hline1)
  · obtain ⟨rfl, hwf⟩ := encode_of_decode h
    rw [accept_of_legal h]
    refine ⟨exec_of_protocolError, fun hcell => ?_⟩
    rw [exec_of_executes ((executes_iff i u.mode).2 ⟨hcell, not_refused_of_decode h hline1⟩)]
    refine ⟨fun ⟨c, hcmd, hmiss⟩ => ?_, fun hhit => ?_⟩
    · subst hcmd
      exact congrArg _ (decSymEffect_of_miss hmiss)
    · obtain ⟨hfull, hroom⟩ := (effectOf_effectIs i u).of_wellFormed_of_hit hwf hhit
      rw [State.hasRoom_eq_fits hlen] at hfull hroom
      exact ⟨fun hfits => congrArg _ (hfull hfits), fun hfits => ⟨_, rfl, hroom hfits⟩⟩

end Sys2Proof.Machine
end

section
/-! The alphabet table as a pair of inverse lookups (40_alphabet_table.md R111, R112, R115). -/

namespace Sys2Proof.Machine

/-- The value of a hit is a place of its code in the alphabet (40_alphabet_table.md R112). -/
theorem symbolOf_of_valueOf {c : Config} {x : Byte} {v : Nat} (h : valueOf c x = some v) :
    symbolOf c v = x := by
  rw [symbolOf_of_lt c (valueOf_lt h)]
  obtain ⟨_, hentry, -⟩ := List.findIdx?_eq_some_iff_getElem.1 h
  simpa using hentry

/-- The lookup of a symbol finds its own place: an earlier entry of the same code would be a repeat
(40_alphabet_table.md R115). -/
theorem valueOf_symbolOf {c : Config} (hnodup : c.alphabet.toList.Nodup) {v : Nat} (hv : v < 91) :
    valueOf c (symbolOf c v) = some v := by
  have hlen : v < c.alphabet.toList.length := by simpa using hv
  have hsymbol : symbolOf c v = c.alphabet.toList[v] := by simp [symbolOf_of_lt c hv]
  rw [hsymbol]
  refine List.findIdx?_eq_some_iff_getElem.2 ⟨hlen, beq_self_eq_true _, fun j hj hsame => ?_⟩
  exact hj.ne (hnodup.getElem_inj_iff.1 (eq_of_beq hsame))

/-- The hits are the codes of the alphabet (40_alphabet_table.md R112). -/
theorem valueOf_isSome_iff (c : Config) (x : Byte) :
    (valueOf c x).isSome = true ↔ x ∈ c.alphabet.toList := by
  rw [valueOf, List.findIdx?_isSome, List.any_eq_true]
  simp

/-- The codes below 256 that hit, in some order, are the entries of an alphabet without repeats. -/
theorem hits_perm_alphabet {c : Config} (hnodup : c.alphabet.toList.Nodup) :
    ((List.range 256).filter fun k => (valueOf c (BitVec.ofNat 8 k)).isSome).Perm
      (c.alphabet.toList.map BitVec.toNat) := by
  have hinj : Function.Injective (BitVec.toNat (w := 8)) := fun _ _ => BitVec.eq_of_toNat_eq
  refine (List.perm_ext_iff_of_nodup (List.nodup_range.filter _) (hnodup.map hinj)).2 fun k => ?_
  rw [List.mem_filter, List.mem_range, valueOf_isSome_iff, List.mem_map]
  constructor
  · rintro ⟨hk, hmem⟩
    exact ⟨_, hmem, Nat.mod_eq_of_lt hk⟩
  · rintro ⟨x, hmem, rfl⟩
    exact ⟨x.isLt, by simpa using hmem⟩

/-- Settles O33: the entries are pairwise distinct, so each is found at its own place and the codes
that hit are as many as the entries. -/
theorem tableLookupsAreInverse : Obligations.TableLookupsAreInverse := by
  rintro c ⟨hnodup, -⟩
  refine ⟨fun v hv => valueOf_symbolOf hnodup (Nat.lt_succ_of_le hv),
    fun x v => symbolOf_of_valueOf, ?_⟩
  rw [(hits_perm_alphabet hnodup).length_eq, List.length_map, Vector.length_toList]

end Sys2Proof.Machine
end

section
/-! The lookup commands (40_alphabet_table.md R116, R117): legal in every mode but `FAULT`. -/

namespace Sys2Proof.Machine

/-- A command stops outside a list of modes that holds all it executes in (30_encoding.md R88). -/
theorem stopsOutside_of_executes {modes : List Mode} {i : Instr}
    (hmodes : ∀ m, legality i m = .executes → m ∈ modes) : StopsOutside modes i := by
  intro s hs
  have hstop : legality i s.mode ≠ .executes := fun h => hs (hmodes _ h)
  cases hlegal : legality i s.mode with
  | executes => exact absurd hlegal hstop
  | protocolError =>
    refine ⟨fun _ => exec_of_protocolError hlegal, fun hfault => ?_⟩
    rw [legality_protocolError_iff, hfault] at hlegal
    simp [RaisesProtocolError] at hlegal
  | refused =>
    exact ⟨fun hne => absurd ((legality_refused_iff i s.mode).1 hlegal).1 hne,
      fun _ => exec_of_refused hlegal⟩

/-- A command with no cell `P` in 30_encoding.md R88 executes in every mode but `FAULT`. -/
theorem executes_iff_ne_fault {i : Instr} (hclr : i ≠ .clr)
    (hprotocol : ∀ m, ¬ RaisesProtocolError i m) (m : Mode) :
    legality i m = .executes ↔ m ≠ .fault := by
  rw [executes_iff, Ne, legality_protocolError_iff, Ne, legality_refused_iff]
  simp [hprotocol, hclr]

theorem tabSym_executes_iff (v : Byte) (m : Mode) :
    legality (.tabSym v) m = .executes ↔ m ≠ .fault :=
  executes_iff_ne_fault (by simp) (by simp [RaisesProtocolError]) m

theorem tabVal_executes_iff (c : Byte) (m : Mode) :
    legality (.tabVal c) m = .executes ↔ m ≠ .fault :=
  executes_iff_ne_fault (by simp) (by simp [RaisesProtocolError]) m

theorem Mode.mem_of_ne_fault {m : Mode} (h : m ≠ .fault) : m ∈ [Mode.idle, .enc, .dec] := by
  cases m with
  | idle | enc | dec => decide
  | fault => exact absurd rfl h

theorem exec_tabSym {v : Byte} {s : State} (hv : v.toNat ≤ 90) (hmode : s.mode ≠ .fault) :
    exec (.tabSym v) s = .next (s.respond (.ok (symbolOf s.cfg v.toNat))) := by
  rw [exec_of_executes ((tabSym_executes_iff v s.mode).2 hmode), effectOf, tabSymEffect, if_pos hv]

theorem decode_tabSym_of_gt {v : Byte} (hv : 90 < v.toNat) :
    decode ((0x8 : BitVec 4) ++ v) = .illegal .valueOutOfRange := by
  rw [decode_append]
  exact if_neg (by omega)

theorem exec_tabVal {s : State} (c : Byte) (hmode : s.mode ≠ .fault) :
    exec (.tabVal c) s = .next (s.respond (.ok (lookupData (valueOf s.cfg c)))) := by
  rw [exec_of_executes ((tabVal_executes_iff c s.mode).2 hmode), effectOf, tabValEffect]

/-- Settles O35: outside `FAULT` the effect answers with the symbol; the port stops an operand above
90 before the command. -/
theorem tabSymRespondsWithTheSymbol : Obligations.TabSymRespondsWithTheSymbol :=
  ⟨fun _ => rfl,
    fun v => stopsOutside_of_executes fun m h =>
      Mode.mem_of_ne_fault ((tabSym_executes_iff v m).1 h),
    fun _ _ => exec_tabSym,
    fun _ s hv => (accept_illegal_outcome (decode_tabSym_of_gt hv) s).1⟩

/-- Settles O36: outside `FAULT` the effect answers with what the lookup gives, a miss or a value of
the table. -/
theorem tabValRespondsWithTheValueOrTheMissBit :
    Obligations.TabValRespondsWithTheValueOrTheMissBit := by
  refine fun c => ⟨rfl, stopsOutside_of_executes fun m h =>
    Mode.mem_of_ne_fault ((tabVal_executes_iff c m).1 h), fun s hmode => ?_⟩
  rw [exec_tabVal c hmode]
  refine ⟨fun hmiss => ?_, fun d hhit => ⟨Nat.le_of_lt_succ (valueOf_lt hhit), ?_⟩⟩
  · rw [hmiss]
    rfl
  · rw [hhit]
    rfl

end Sys2Proof.Machine
end

section
/-! The encoder's data path by cases: the group, the byte fed, the flush (41_encoder.md R132, R133,
R136). -/

namespace Sys2Proof.Machine

theorem encGroup_of_gt {a : AccWord} (h : 88 < (a.extractLsb' 0 13).toNat) :
    encGroup a = ((a.extractLsb' 0 13).toNat, 13) := by
  simp only [BitVec.extractLsb'_toNat, Nat.shiftRight_zero] at h ⊢
  exact if_pos h

theorem encGroup_of_le {a : AccWord} (h : (a.extractLsb' 0 13).toNat ≤ 88) :
    encGroup a = ((a.extractLsb' 0 14).toNat, 14) := by
  simp only [BitVec.extractLsb'_toNat, Nat.shiftRight_zero] at h ⊢
  exact if_neg (by omega)

/-- The width of a group is the width the decoder gives its value (42_decoder.md R164). -/
theorem groupWidth_encGroup (a : AccWord) : groupWidth (encGroup a).1 = (encGroup a).2 := by
  unfold encGroup groupWidth
  split
  · exact if_pos (by omega)
  · exact if_neg (by omega)

theorem encGroup_value_le (a : AccWord) : (encGroup a).1 ≤ 8280 := by
  unfold encGroup
  split <;> omega

theorem encFeed_of_le {acc : AccWord} {n : CountWord} (b : Byte) (h : n.toNat + 8 ≤ 13) :
    encFeed acc n b =
      { vals := [], acc := acc ||| (zext24 b <<< n.toNat), n := BitVec.ofNat 5 (n.toNat + 8) } := by
  rw [encFeed, if_neg (by omega)]

theorem encFeed_of_gt {acc : AccWord} {n : CountWord} (b : Byte) (h : n.toNat + 8 > 13) :
    encFeed acc n b =
      { vals := pairOf (encGroup (acc ||| (zext24 b <<< n.toNat))).1
        acc := (acc ||| (zext24 b <<< n.toNat)) >>> (encGroup (acc ||| (zext24 b <<< n.toNat))).2
        n := BitVec.ofNat 5
          (n.toNat + 8 - (encGroup (acc ||| (zext24 b <<< n.toNat))).2) } := by
  rw [encFeed, if_pos h]

/-- The bits an encoder holds between two bytes (10_state.md R36 item 1). -/
structure HeldBits (acc : AccWord) (n : CountWord) : Prop where
  fits  : acc.toNat < 2 ^ n.toNat
  bound : n.toNat ≤ 13

theorem HeldBits.zero : HeldBits 0 0 := ⟨Nat.one_pos, Nat.zero_le 13⟩

theorem State.Inv.heldBits {s : State} (h : s.Inv) : HeldBits s.acc s.n := ⟨h.accFits, h.countBound⟩

theorem HeldBits.acc_lt {acc : AccWord} {n : CountWord} (h : HeldBits acc n) : acc.toNat < 8192 :=
  h.fits.trans_le (Nat.pow_le_pow_right (by decide) h.bound)

/-- What one byte fed to `n` held bits yields: it is kept, or a group `v` leaves at the bottom and
its pair is emitted (41_encoder.md R132). -/
inductive Feeds (acc : AccWord) (n : CountWord) (b : Byte) : EncFeed → Prop
  | keeps {acc' : AccWord} {n' : CountWord} (hbound : n'.toNat ≤ 13)
      (hn : n'.toNat = n.toNat + 8) (hacc : acc'.toNat = acc.toNat + b.toNat * 2 ^ n.toNat) :
      Feeds acc n b ⟨[], acc', n'⟩
  | emits {v : Nat} {acc' : AccWord} {n' : CountWord} (hbound : n'.toNat ≤ 13) (hv : v ≤ 8280)
      (hn : n'.toNat + groupWidth v = n.toNat + 8)
      (hacc : v + acc'.toNat * 2 ^ groupWidth v = acc.toNat + b.toNat * 2 ^ n.toNat) :
      Feeds acc n b ⟨pairOf v, acc', n'⟩

theorem encFeed_feeds {acc : AccWord} {n : CountWord} (h : HeldBits acc n) (b : Byte) :
    Feeds acc n b (encFeed acc n b) := by
  obtain ⟨hfits, hbound⟩ := h
  have hinsert := insert_byte_toNat acc n.toNat b hfits hbound
  by_cases hn : n.toNat + 8 > 13
  · rw [encFeed_of_gt b hn]
    generalize acc ||| (zext24 b <<< n.toNat) = a at hinsert ⊢
    have hwidth := encGroup_width a
    have hcount : (BitVec.ofNat 5 (n.toNat + 8 - (encGroup a).2)).toNat =
        n.toNat + 8 - (encGroup a).2 := Nat.mod_eq_of_lt (by omega)
    refine .emits (by omega) (encGroup_value_le a) ?_ ?_
    · rw [groupWidth_encGroup]
      omega
    · rw [groupWidth_encGroup, encGroup_value, BitVec.toNat_ushiftRight,
        Nat.shiftRight_eq_div_pow, Nat.mod_add_div', hinsert]
  · rw [encFeed_of_le b (by omega)]
    have hcount : (BitVec.ofNat 5 (n.toNat + 8)).toNat = n.toNat + 8 :=
      Nat.mod_eq_of_lt (by omega)
    exact .keeps (by omega) hcount hinsert

/-- `w` bits above `n` bits are `n + w` bits. -/
theorem add_mul_two_pow_lt {a x n w : Nat} (ha : a < 2 ^ n) (hx : x < 2 ^ w) :
    a + x * 2 ^ n < 2 ^ (n + w) := by
  have hstep : (x + 1) * 2 ^ n ≤ 2 ^ w * 2 ^ n := Nat.mul_le_mul_right _ hx
  rw [Nat.add_one_mul] at hstep
  rw [Nat.pow_add, Nat.mul_comm (2 ^ n)]
  omega

theorem Feeds.heldBits {acc : AccWord} {n : CountWord} {b : Byte} {f : EncFeed}
    (h : HeldBits acc n) (hfeed : Feeds acc n b f) : HeldBits f.acc f.n := by
  have hinsert := add_mul_two_pow_lt h.fits b.isLt
  cases hfeed with
  | keeps hbound hn hacc => exact ⟨by rw [hn, hacc]; exact hinsert, hbound⟩
  | @emits v acc' n' hbound _ hn hacc =>
    refine ⟨?_, hbound⟩
    rw [← hn, Nat.pow_add, ← hacc] at hinsert
    exact Nat.lt_of_mul_lt_mul_right (lt_of_le_of_lt (Nat.le_add_left _ v) hinsert)

/-- What the flush of held bits emits (41_encoder.md R136): nothing when none is held, a pair when
they need one, else the one symbol that holds them. -/
inductive Flushes (acc : AccWord) (n : CountWord) : List Nat → Prop
  | nothing (hn : n.toNat = 0) : Flushes acc n []
  | pair (hn : 7 ≤ n.toNat) (hwide : 7 < n.toNat ∨ 91 ≤ acc.toNat) :
      Flushes acc n (pairOf acc.toNat)
  | single (hpos : 0 < n.toNat) (hn : n.toNat ≤ 7) (hacc : acc.toNat < 91) :
      Flushes acc n [acc.toNat]

/-- A value of 91 or more takes 7 bits. -/
theorem HeldBits.seven_le_of_acc {acc : AccWord} {n : CountWord} (h : HeldBits acc n)
    (hacc : 91 ≤ acc.toNat) : 7 ≤ n.toNat := by
  by_contra hn
  have hpow : 2 ^ n.toNat ≤ 2 ^ 6 := Nat.pow_le_pow_right (by decide) (by omega)
  exact absurd (h.fits.trans_le hpow) (by omega)

theorem flushVals_flushes {acc : AccWord} {n : CountWord} (h : HeldBits acc n) :
    Flushes acc n (flushVals acc n) := by
  unfold flushVals
  split
  case isTrue hzero => exact .nothing hzero
  case isFalse hpos =>
    split
    case isTrue hwide => exact .pair (hwide.elim Nat.le_of_lt h.seven_le_of_acc) hwide
    case isFalse hnarrow =>
      rw [Nat.mod_eq_of_lt (by omega)]
      exact .single (by omega) (by omega) (by omega)

/-- The values of a byte fed stand in the alphabet (41_encoder.md R141). -/
theorem Feeds.vals_le {acc : AccWord} {n : CountWord} {b : Byte} {f : EncFeed}
    (h : Feeds acc n b f) : ∀ v ∈ f.vals, v ≤ 90 := by
  cases h with
  | keeps => simp
  | emits _ hv => exact pairOf_le hv

/-- The values of a flush stand in the alphabet (41_encoder.md R141). -/
theorem Flushes.vals_le {acc : AccWord} {n : CountWord} {vals : List Nat} (h : HeldBits acc n)
    (hflush : Flushes acc n vals) : ∀ v ∈ vals, v ≤ 90 := by
  have hacc := h.acc_lt
  cases hflush with
  | nothing => simp
  | pair => exact pairOf_le (by omega)
  | single _ _ hlt => simpa using Nat.le_of_lt_succ hlt

end Sys2Proof.Machine
end

section
/-! The encoder's commands one by one (41_encoder.md R131, R132, R136). -/

namespace Sys2Proof.Machine

theorem exec_encStart {s : State} (h : s.mode = .idle) :
    exec .encStart s = .next (encStartEffect s) :=
  exec_of_executes (by rw [h]; rfl)

theorem exec_encByte {s : State} (b : Byte) (h : s.mode = .enc) :
    exec (.encByte b) s = .next (encByteEffect b s) :=
  exec_of_executes (by rw [h]; rfl)

theorem exec_encEnd {s : State} (h : s.mode = .enc) : exec .encEnd s = .next (encEndEffect s) :=
  exec_of_executes (by rw [h]; rfl)

theorem emit_of_room {i : Instr} {bytes : List Byte} {update : State → State} {s : State}
    (h : s.hasRoom bytes.length = true) : emit i bytes update s =
      (update (s.appendAll bytes)).respond (.ok (BitVec.ofNat 8 bytes.length)) :=
  if_pos h

theorem emit_of_full {i : Instr} {bytes : List Byte} {update : State → State} {s : State}
    (h : s.hasRoom bytes.length = false) : emit i bytes update s = s.raise .outOfMemory (encode i) :=
  if_neg (by simp [h])

theorem encByteEffect_of_room {b : Byte} {s : State}
    (h : s.hasRoom (encFeed s.acc s.n b).vals.length = true) :
    encByteEffect b s =
      { s.appendAll ((encFeed s.acc s.n b).vals.map (symbolOf s.cfg)) with
        acc := (encFeed s.acc s.n b).acc, n := (encFeed s.acc s.n b).n,
        resp := some (.ok (BitVec.ofNat 8 (encFeed s.acc s.n b).vals.length)) } := by
  rw [encByteEffect, emit_of_room (by rwa [List.length_map]), List.length_map]
  rfl

theorem encByteEffect_of_full {b : Byte} {s : State}
    (h : s.hasRoom (encFeed s.acc s.n b).vals.length = false) :
    encByteEffect b s = s.raise .outOfMemory (encode (.encByte b)) := by
  rw [encByteEffect, emit_of_full (by rwa [List.length_map])]

theorem encEndEffect_of_full {s : State} (h : s.hasRoom (flushVals s.acc s.n).length = false) :
    encEndEffect s = s.raise .outOfMemory (encode .encEnd) := by
  rw [encEndEffect, emit_of_full (by rwa [List.length_map])]

theorem encEndEffect_of_room {s : State} (h : s.hasRoom (flushVals s.acc s.n).length = true) :
    encEndEffect s =
      { s.appendAll ((flushVals s.acc s.n).map (symbolOf s.cfg)) with
        acc := 0, n := 0, mode := .idle,
        resp := some (.ok (BitVec.ofNat 8 (flushVals s.acc s.n).length)) } := by
  rw [encEndEffect, emit_of_room (by rwa [List.length_map]), List.length_map]
  rfl

/-- A command whose opcode admits the operand 0 only (30_encoding.md R84 case b). -/
theorem bareWord_of_noOperand {i : Instr} {w : CmdWord} (hword : encode i = w)
    (hbare : operand i = 0) (hdecode : ∀ imm, decode (opcode i ++ imm) = noOperand i imm) :
    BareWord i w := by
  refine ⟨hword, ?_, fun imm s himm => accept_illegal_outcome (why := .operandNotZero) ?_ s⟩
  · rw [← hword, encode, hbare, hdecode]
    rfl
  · rw [hdecode, noOperand, if_neg himm]

theorem mode_of_encByte_executes {b : Byte} {m : Mode} (h : legality (.encByte b) m = .executes) :
    m = .enc := by
  cases m with
  | enc => rfl
  | idle | dec | fault => cases h

/-- Settles O37: `ENC.START` executes in `IDLE` only, and its effect is the state given. -/
theorem encStartClearsTheAccumulator : Obligations.EncStartClearsTheAccumulator :=
  ⟨bareWord_of_noOperand rfl rfl fun imm => decode_append _ imm,
    stopsOutside_of_executes fun m h =>
      have ⟨hencStart, _⟩ := mode_of_executes m
      List.mem_singleton.2 (hencStart h),
    fun _ => exec_encStart⟩

theorem flushVals_of_zero (acc : AccWord) {n : CountWord} (h : n.toNat = 0) :
    flushVals acc n = [] :=
  if_pos h

theorem flushVals_of_wide {acc : AccWord} {n : CountWord} (hn : n.toNat ≠ 0)
    (h : n.toNat > 7 ∨ acc.toNat ≥ 91) : flushVals acc n = pairOf acc.toNat := by
  rw [flushVals, if_neg hn, if_pos h]

theorem flushVals_of_narrow {acc : AccWord} {n : CountWord} (hn : n.toNat ≠ 0)
    (h : n.toNat ≤ 7) (hacc : acc.toNat < 91) : flushVals acc n = [acc.toNat % 91] := by
  rw [flushVals, if_neg hn, if_neg (by omega)]

/-- `ENC.BYTE` where the pair of a group has room. -/
theorem exec_encByte_of_group {b : Byte} {s : State} {a : AccWord} {v g : Nat}
    (hmode : s.mode = .enc) (ha : a = s.acc ||| (zext24 b <<< s.n.toNat))
    (hn : s.n.toNat + 8 > 13) (hfits : s.cfg.fits (s.len + 2) = true)
    (hgroup : encGroup a = (v, g)) :
    exec (.encByte b) s = .next
      { s.appendAll ((pairOf v).map (symbolOf s.cfg)) with
        acc := a >>> g, n := BitVec.ofNat 5 (s.n.toNat + 8 - g), resp := some (.ok 2) } := by
  have hroom : s.hasRoom (encFeed s.acc s.n b).vals.length = true := by
    rw [encFeed_vals_length, if_pos hn, s.hasRoom_pos two_pos, hfits]
  rw [exec_encByte b hmode, encByteEffect_of_room hroom, encFeed_of_gt b hn, ← ha, hgroup]
  rfl

/-- Settles O38: a byte that fits is kept; one that does not sends the group at the bottom of the
accumulator out, if its two symbols have room. -/
theorem encByteFeedsOneByte : Obligations.EncByteFeedsOneByte := by
  refine fun b => ⟨rfl,
    stopsOutside_of_executes fun m h => List.mem_singleton.2 (mode_of_encByte_executes h),
    fun s a hmode _ ha => ⟨fun hn => ?_, fun hn hfull => ?_,
      fun hn hfits hshort => exec_encByte_of_group hmode ha hn hfits (encGroup_of_gt hshort),
      fun hn hfits hlong => exec_encByte_of_group hmode ha hn hfits (encGroup_of_le hlong)⟩⟩
  · have hroom : s.hasRoom (encFeed s.acc s.n b).vals.length = true := by
      rw [encFeed_of_le b hn]
      rfl
    rw [exec_encByte b hmode, encByteEffect_of_room hroom, encFeed_of_le b hn, ha]
    rfl
  · have hroom : s.hasRoom (encFeed s.acc s.n b).vals.length = false := by
      rw [encFeed_vals_length, if_pos hn, s.hasRoom_pos two_pos, hfull]
    rw [exec_encByte b hmode, encByteEffect_of_full hroom]
    rfl

/-- `ENC.END` where the flush emits: without room for it, and with. -/
theorem exec_encEnd_of_flush {s : State} {vals : List Nat} (hmode : s.mode = .enc)
    (hvals : flushVals s.acc s.n = vals) (hpos : 0 < vals.length) :
    (s.cfg.fits (s.len + vals.length) = false →
      FaultsWith .outOfMemory 0x300 s (exec .encEnd s)) ∧
    (s.cfg.fits (s.len + vals.length) = true → exec .encEnd s = .next
      { s.appendAll (vals.map (symbolOf s.cfg)) with
        acc := 0, n := 0, mode := .idle, resp := some (.ok (BitVec.ofNat 8 vals.length)) }) := by
  subst hvals
  rw [exec_encEnd hmode, ← s.hasRoom_pos hpos]
  exact ⟨fun hfull => congrArg _ (encEndEffect_of_full hfull),
    fun hroom => congrArg _ (encEndEffect_of_room hroom)⟩

/-- Settles O39: the flush by the number of its values, each with and without room for them. -/
theorem encEndFlushesTheRemainingBits : Obligations.EncEndFlushesTheRemainingBits := by
  refine ⟨bareWord_of_noOperand rfl rfl fun imm => decode_append _ imm,
    stopsOutside_of_executes fun m h =>
      have ⟨_, hencEnd, _⟩ := mode_of_executes m
      List.mem_singleton.2 (hencEnd h),
    fun s hmode => ⟨fun hn => ?_, fun hn hwide => ?_, fun hn hnarrow hacc => ?_⟩⟩
  · have hvals := flushVals_of_zero s.acc (congrArg BitVec.toNat hn)
    rw [exec_encEnd hmode, encEndEffect_of_room (by rw [hvals]; rfl), hvals]
    rfl
  · replace hn : s.n.toNat ≠ 0 := fun hzero => hn (BitVec.eq_of_toNat_eq hzero)
    exact exec_encEnd_of_flush hmode (flushVals_of_wide hn hwide) two_pos
  · replace hn : s.n.toNat ≠ 0 := fun hzero => hn (BitVec.eq_of_toNat_eq hzero)
    exact exec_encEnd_of_flush hmode (flushVals_of_narrow hn hnarrow hacc) one_pos

end Sys2Proof.Machine
end

section
/-! The group rule and the encoder's loop (41_encoder.md R133, R134, R137). -/

namespace Sys2Proof.Machine

/-- Settles O40: the two branches of the rule bound the value, and a value within the bounds is the
group of the accumulator that holds just it. -/
theorem encGroupGivesExactlyTheGroups : Obligations.EncGroupGivesExactlyTheGroups := by
  refine ⟨fun a => ⟨encGroup_of_gt, encGroup_of_le⟩, fun v g => ⟨?_, fun h => ?_⟩⟩
  · rintro ⟨a, h⟩
    rw [encGroup] at h
    split at h <;> cases h <;> omega
  · have hvalue : (BitVec.ofNat 24 v).toNat = v := Nat.mod_eq_of_lt (by omega)
    refine ⟨BitVec.ofNat 24 v, ?_⟩
    rw [encGroup, hvalue]
    rcases h with ⟨rfl, hlow, hhigh⟩ | ⟨rfl, h⟩
    · rw [if_pos (by omega), Nat.mod_eq_of_lt (by omega)]
    · rw [if_neg (by omega), Nat.mod_eq_of_lt (by omega)]

/-- With at most 13 bits held the loop is over. -/
theorem encLoop_of_le (passes : Nat) (acc : AccWord) {n : Nat} (h : n ≤ 13) :
    encLoop passes acc n = ([], acc, n) := by
  cases passes with
  | zero => rfl
  | succ p => rw [encLoop, if_neg (by omega)]

/-- One pass of the loop takes the group at the bottom of the accumulator. -/
theorem encLoop_succ_of_gt (p : Nat) (acc : AccWord) {n : Nat} (h : n > 13) :
    encLoop (p + 1) acc n =
      (pairOf (encGroup acc).1 ++ (encLoop p (acc >>> (encGroup acc).2) (n - (encGroup acc).2)).1,
        (encLoop p (acc >>> (encGroup acc).2) (n - (encGroup acc).2)).2) := by
  rw [encLoop, if_pos h, encGroup]
  split <;> rfl

/-- Settles O41: a byte makes at most 21 bits of 13, and one pass leaves at most 8 of them. -/
theorem encoderLoopRunsAtMostOnce : Obligations.EncoderLoopRunsAtMostOnce := by
  intro acc n b passes hn hpasses
  obtain ⟨p, rfl⟩ := Nat.exists_eq_add_of_le' hpasses
  by_cases hfull : n.toNat + 8 > 13
  · rw [encFeed_of_gt b hfull, zext24, encLoop_succ_of_gt p _ hfull]
    generalize acc ||| (b.setWidth 24 <<< n.toNat) = a
    have hwidth := encGroup_width a
    have hcount : (BitVec.ofNat 5 (n.toNat + 8 - (encGroup a).2)).toNat =
        n.toNat + 8 - (encGroup a).2 := Nat.mod_eq_of_lt (by omega)
    rw [encLoop_of_le p _ (by omega), List.append_nil, hcount]
    exact ⟨rfl, .inr rfl, by omega⟩
  · have hcount : (BitVec.ofNat 5 (n.toNat + 8)).toNat = n.toNat + 8 := Nat.mod_eq_of_lt (by omega)
    rw [encFeed_of_le b (by omega), zext24, encLoop_of_le _ _ (by omega), hcount]
    exact ⟨rfl, .inl rfl, by omega⟩

/-- Settles O42: with at most 13 bits held `ACC` is below 8192, so its low bits are all of it. -/
theorem flushAgreesWithTheThresholdLogic : Obligations.FlushAgreesWithTheThresholdLogic := by
  intro s hinv
  have hacc := hinv.heldBits.acc_lt
  refine ⟨?_, by omega⟩
  rw [encGroup, Nat.mod_eq_of_lt hacc, Nat.mod_eq_of_lt (by omega : s.acc.toNat < 16384)]
  split <;> rfl

end Sys2Proof.Machine
end

section
/-! A complete encode call (41_encoder.md R139) and the owned copy of what it appends
(43_output_buffer.md R193). -/

namespace Sys2Proof.Machine

@[simp] theorem State.appendAll_mode (bs : List Byte) (s : State) :
    (s.appendAll bs).mode = s.mode := by rw [State.appendAll_eq]

@[simp] theorem State.appendAll_err (bs : List Byte) (s : State) :
    (s.appendAll bs).err = s.err := by rw [State.appendAll_eq]

@[simp] theorem State.appendAll_tick (bs : List Byte) (s : State) :
    (s.appendAll bs).tick = s.tick := by rw [State.appendAll_eq]

theorem State.hasRoom_of_fits {s : State} {k m : Nat} (hk : k ≤ m)
    (h : s.cfg.fits (s.len + m) = true) : s.hasRoom k = true := by
  rw [State.hasRoom, Config.fits_mono (Nat.add_le_add_left hk s.len) h, Bool.or_true]

theorem State.hostOut_appendAll_old (bs : List Byte) {s : State} {i : Nat} (h : i < s.len) :
    (s.appendAll bs).hostOut i = s.hostOut i := by
  have hnew : i < (s.appendAll bs).len := by rw [State.appendAll_len]; omega
  rw [State.hostOut, State.hostOut, if_pos hnew, if_pos h, s.appendAll_read_other bs i (.inl h),
    State.appendAll_tick]

theorem State.hostOut_appendAll_new (bs : List Byte) (s : State) {j : Nat} (h : j < bs.length) :
    (s.appendAll bs).hostOut (s.len + j) = bs[j] :=
  State.hostOut_of_read (by rw [State.appendAll_len]; omega) (s.appendAll_read_new bs j h)

/-- The owned copy after an append is the copy before it, then the bytes. -/
theorem State.ownedCopy_appendAll (bs : List Byte) (s : State) :
    (s.appendAll bs).ownedCopy = s.ownedCopy ++ bs := by
  rw [State.ownedCopy, State.appendAll_len, List.range_add, List.map_append, List.map_map]
  congr 1
  · exact List.map_congr_left fun i hi => State.hostOut_appendAll_old bs (List.mem_range.1 hi)
  · refine List.ext_getElem (by simp) fun j _ hj => ?_
    simpa using State.hostOut_appendAll_new bs s hj

/-- What `ENC.BYTE` makes of `s` where its values have room: the call goes on with the bits kept, and
the symbols are appended. -/
structure FeedEnds (f : EncFeed) (s t : State) : Prop where
  mode : t.mode = .enc
  acc  : t.acc = f.acc
  n    : t.n = f.n
  err  : t.err = s.err
  cfg  : t.cfg = s.cfg
  len  : t.len = s.len + f.vals.length
  copy : t.ownedCopy = s.ownedCopy ++ f.vals.map (symbolOf s.cfg)

theorem encByteEffect_feedEnds {b : Byte} {s : State} (hmode : s.mode = .enc)
    (h : s.hasRoom (encFeed s.acc s.n b).vals.length = true) :
    FeedEnds (encFeed s.acc s.n b) s (encByteEffect b s) := by
  rw [encByteEffect_of_room h]
  exact ⟨(State.appendAll_mode _ s).trans hmode, rfl, rfl, State.appendAll_err _ s,
    State.appendAll_cfg _ s, by simp, State.ownedCopy_appendAll _ s⟩

/-- Where the rest of an encode call leads from `s`: the call is over and `ys` is appended. -/
structure EncodeCallEnds (ys : List Byte) (s t : State) : Prop where
  mode : t.mode = .idle
  acc  : t.acc = 0
  n    : t.n = 0
  err  : t.err = s.err
  copy : t.ownedCopy = s.ownedCopy ++ ys

/-- Within a call the machine appends what `encodeFrom` gives from the bits it holds; induction over
the bytes still to come. -/
theorem execAll_encodeRest {s : State} (x : List Byte) (hmode : s.mode = .enc)
    (hroom : s.cfg.fits (s.len + (encodeFrom s.cfg s.acc s.n x).length) = true) :
    ∃ t, execAll (x.map .encByte ++ [.encEnd]) s = .next t ∧
      EncodeCallEnds (encodeFrom s.cfg s.acc s.n x) s t := by
  induction x generalizing s with
  | nil =>
    have hfits : s.hasRoom (flushVals s.acc s.n).length = true :=
      State.hasRoom_of_fits (by rw [encodeFrom, List.length_map]) hroom
    refine ⟨_, execAll_cons_of_next [] (exec_encEnd hmode), ?_⟩
    rw [encEndEffect_of_room hfits]
    exact ⟨rfl, rfl, rfl, State.appendAll_err _ s, State.ownedCopy_appendAll _ s⟩
  | cons b rest ih =>
    rw [encodeFrom, List.length_append, List.length_map] at hroom
    have hfits : s.hasRoom (encFeed s.acc s.n b).vals.length = true :=
      State.hasRoom_of_fits (Nat.le_add_right _ _) hroom
    obtain ⟨hmode', hacc', hn', herr', hcfg', hlen', hcopy'⟩ := encByteEffect_feedEnds hmode hfits
    obtain ⟨t, hrun, hends⟩ := ih hmode' (by rwa [hacc', hn', hcfg', hlen', Nat.add_assoc])
    rw [hacc', hn', hcfg'] at hends
    refine ⟨t, (execAll_cons_of_next _ (exec_encByte b hmode)).trans hrun, hends.mode, hends.acc,
      hends.n, hends.err.trans herr', ?_⟩
    rw [encodeFrom, ← List.append_assoc, ← hcopy', hends.copy]

/-- The symbols depend on the table only (41_encoder.md R139). -/
theorem symbolOf_congr {c d : Config} (h : c.alphabet = d.alphabet) : symbolOf c = symbolOf d := by
  funext v
  rw [symbolOf, symbolOf, h]

theorem encodeFrom_congr {c d : Config} (h : c.alphabet = d.alphabet) (acc : AccWord)
    (n : CountWord) (x : List Byte) : encodeFrom c acc n x = encodeFrom d acc n x := by
  induction x generalizing acc n with
  | nil => rw [encodeFrom, encodeFrom, symbolOf_congr h]
  | cons b rest ih => rw [encodeFrom, encodeFrom, symbolOf_congr h, ih]

/-- Settles O44: `ENC.START` clears what the call holds, and the rest of the call appends what
`encodeFrom` gives from nothing held. -/
theorem encodeCallAppendsItsEncoding : Obligations.EncodeCallAppendsItsEncoding := by
  refine ⟨fun s x hinv hidle hroom => ?_, fun c d x h => encodeFrom_congr h 0 0 x⟩
  obtain ⟨t, hrun, hmode, hacc, hn, herr, hcopy⟩ :=
    execAll_encodeRest (s := encStartEffect s) x rfl hroom
  have hserr : s.err = .none := hinv.errMode.2 (by simp [hidle])
  exact ⟨t, (execAll_cons_of_next _ (exec_encStart hidle)).trans hrun, hmode, hacc, hn,
    herr.trans hserr, hcopy⟩

end Sys2Proof.Machine
end

section
/-! The bounds on the length of an encoding (41_encoder.md R142): a pair of symbols spells 13 or 14
bits. -/

namespace Sys2Proof.Machine

/-- The symbols of a byte fed spell the bits no longer held, 13 or 14 by a pair. -/
theorem Feeds.bits_bounds {acc : AccWord} {n : CountWord} {b : Byte} {f : EncFeed}
    (h : Feeds acc n b f) : n.toNat + 8 ≤ f.n.toNat + 7 * f.vals.length ∧
      2 * f.n.toNat + 13 * f.vals.length ≤ 2 * (n.toNat + 8) := by
  cases h with
  | keeps _ hn => simp [hn]
  | @emits v _ _ _ _ hn =>
    have hwidth := groupWidth_cases v
    simp only [pairOf_length]
    omega

/-- The symbols of a flush have room for the bits held, and for at most 6 more. -/
theorem Flushes.bits_bounds {acc : AccWord} {n : CountWord} {vals : List Nat}
    (h : HeldBits acc n) (hflush : Flushes acc n vals) :
    n.toNat ≤ 7 * vals.length ∧ 13 * vals.length ≤ 2 * n.toNat + 12 := by
  have hbound := h.bound
  cases hflush with
  | nothing hn => simp [hn]
  | pair hn =>
    simp only [pairOf_length]
    omega
  | single hpos hn =>
    simp only [List.length_singleton]
    omega

/-- The bounds for the rest of a call: of the bits held and those still to come. -/
theorem encodeFrom_length_bounds (c : Config) {acc : AccWord} {n : CountWord}
    (h : HeldBits acc n) (x : List Byte) :
    n.toNat + 8 * x.length ≤ 7 * (encodeFrom c acc n x).length ∧
    13 * (encodeFrom c acc n x).length ≤ 2 * (n.toNat + 8 * x.length) + 12 := by
  induction x generalizing acc n with
  | nil =>
    rw [encodeFrom, List.length_map, List.length_nil]
    exact (flushVals_flushes h).bits_bounds h
  | cons b rest ih =>
    have hfeed := encFeed_feeds h b
    have hbits := hfeed.bits_bounds
    have hrest := ih (hfeed.heldBits h)
    rw [encodeFrom, List.length_append, List.length_map, List.length_cons]
    omega

/-- Settles O45: the bounds of the rest of a call with nothing held, rounded to whole symbols. -/
theorem encodedLengthBounds : Obligations.EncodedLengthBounds := by
  intro c x
  obtain ⟨hlower, hupper⟩ := encodeFrom_length_bounds c HeldBits.zero x
  have hzero : (0 : CountWord).toNat = 0 := rfl
  rw [encodeBytes]
  omega

end Sys2Proof.Machine
end

section
/-! The decoder's data path on little-endian numbers (42_decoder.md R163). -/

namespace Sys2Proof.Machine

/-- The lowest `k` bytes of a number, low byte first (20_memory.md R56). -/
def lowBytes (k v : Nat) : List Byte :=
  match k with
  | 0     => []
  | k + 1 => BitVec.ofNat 8 v :: lowBytes k (v / 256)

/-- The lowest `j + k` bytes are those of the part below `256 ^ j` and those of the rest. -/
theorem lowBytes_add (j k a q : Nat) :
    lowBytes (j + k) (a + 256 ^ j * q) = lowBytes j a ++ lowBytes k (a / 256 ^ j + q) := by
  induction j generalizing a with
  | zero => simp [lowBytes]
  | succ j ih =>
    have hlow : a + 256 ^ (j + 1) * q = a + 256 * (256 ^ j * q) := by ring
    have hbyte : BitVec.ofNat 8 (a + 256 * (256 ^ j * q)) = BitVec.ofNat 8 a :=
      BitVec.eq_of_toNat_eq (by simp)
    rw [hlow, Nat.add_right_comm, lowBytes, lowBytes, hbyte,
      Nat.add_mul_div_left _ _ (by decide), ih, Nat.div_div_eq_div_mul, ← Nat.pow_succ',
      List.cons_append]

/-- A byte above a number of `k` bytes is byte `k`. -/
theorem lowBytes_succ_of_lt {k v : Nat} (b : Byte) (h : v < 256 ^ k) :
    lowBytes (k + 1) (v + 256 ^ k * b.toNat) = lowBytes k v ++ [b] := by
  rw [lowBytes_add, Nat.div_eq_of_lt h, Nat.zero_add, lowBytes, lowBytes, BitVec.ofNat_toNat,
    BitVec.setWidth_eq]

theorem drain_bytes (k : Nat) (a : AccWord) : (drain k a).1 = lowBytes k a.toNat := by
  induction k generalizing a with
  | zero => rfl
  | succ k ih =>
    have hbyte : lowByte a = BitVec.ofNat 8 a.toNat := BitVec.eq_of_toNat_eq (by simp [lowByte])
    rw [drain, ih, lowBytes, hbyte, BitVec.toNat_ushiftRight, Nat.shiftRight_eq_div_pow]

/-- A group value fits its width (42_decoder.md R165). -/
theorem lt_two_pow_groupWidth {v : Nat} (h : v ≤ 8280) : v < 2 ^ groupWidth v := by
  unfold groupWidth
  split <;> omega

/-- The bits a decoder holds between two pairs (10_state.md R36 item 5). -/
structure DecHeldBits (acc : AccWord) (n : CountWord) : Prop where
  fits  : acc.toNat < 2 ^ n.toNat
  bound : n.toNat ≤ 7

theorem DecHeldBits.zero : DecHeldBits 0 0 := ⟨Nat.one_pos, Nat.zero_le 7⟩

/-- What a completed pair yields from `n` bits held: the whole bytes of the number it makes with
them, and the bits above these (42_decoder.md R163). -/
structure PairFeeds (acc : AccWord) (n : CountWord) (v : Nat) (f : DecFeed) : Prop where
  bytes : f.bytes = lowBytes ((n.toNat + groupWidth v) / 8) (acc.toNat + v * 2 ^ n.toNat)
  acc   : f.acc.toNat = (acc.toNat + v * 2 ^ n.toNat) / 256 ^ ((n.toNat + groupWidth v) / 8)
  n     : f.n.toNat = (n.toNat + groupWidth v) % 8

theorem decFeed_pairFeeds {acc : AccWord} {n : CountWord} {v : Nat}
    (h : DecHeldBits acc n) (hv : v ≤ 8280) : PairFeeds acc n v (decFeed acc n v) := by
  obtain ⟨hacc, hn⟩ := h
  have hwidth := groupWidth_cases v
  have hinsert :=
    insert_toNat acc n.toNat v (groupWidth v) hacc (lt_two_pow_groupWidth hv) (by omega)
  refine ⟨?_, ?_, Nat.mod_eq_of_lt (by omega)⟩
  · rw [decFeed, drain_bytes, hinsert]
  · rw [decFeed, drain_acc_toNat, hinsert, Nat.pow_mul]

/-- `k` bits are the whole bytes of them and the rest. -/
theorem two_pow_eq_bytes_mul_bits (k : Nat) : 2 ^ k = 256 ^ (k / 8) * 2 ^ (k % 8) :=
  calc 2 ^ k = 2 ^ (8 * (k / 8) + k % 8) := by rw [Nat.div_add_mod]
    _ = (2 ^ 8) ^ (k / 8) * 2 ^ (k % 8) := by rw [Nat.pow_add, Nat.pow_mul]

theorem PairFeeds.decHeldBits {acc : AccWord} {n : CountWord} {v : Nat} {f : DecFeed}
    (hfeed : PairFeeds acc n v f) (h : DecHeldBits acc n) (hv : v ≤ 8280) :
    DecHeldBits f.acc f.n := by
  have hn := hfeed.n
  refine ⟨?_, by omega⟩
  rw [hfeed.acc, hn]
  refine Nat.div_lt_of_lt_mul ?_
  rw [← two_pow_eq_bytes_mul_bits]
  exact add_mul_two_pow_lt h.fits (lt_two_pow_groupWidth hv)

/-- The bytes of a pair, then the lowest bytes of `q` above the bits it leaves, are the lowest bytes
of `q` above the whole group. -/
theorem PairFeeds.bytes_append {acc : AccWord} {n : CountWord} {v : Nat} {f : DecFeed}
    (h : PairFeeds acc n v f) (m q : Nat) :
    f.bytes ++ lowBytes m (f.acc.toNat + q * 2 ^ f.n.toNat) =
      lowBytes ((n.toNat + groupWidth v) / 8 + m)
        (acc.toNat + (v + q * 2 ^ groupWidth v) * 2 ^ n.toNat) := by
  have hsplit := two_pow_eq_bytes_mul_bits (n.toNat + groupWidth v)
  rw [← h.n, Nat.pow_add] at hsplit
  have hsum : acc.toNat + (v + q * 2 ^ groupWidth v) * 2 ^ n.toNat =
      acc.toNat + v * 2 ^ n.toNat +
        256 ^ ((n.toNat + groupWidth v) / 8) * (q * 2 ^ f.n.toNat) := by
    linear_combination q * hsplit
  rw [h.bytes, h.acc, hsum, lowBytes_add]

end Sys2Proof.Machine
end

section
/-! The round trip (42_decoder.md R171): the bits a decoder holds and the bits an encoder holds are
together the bytes not yet decoded. -/

namespace Sys2Proof.Machine

/-- The decoder reads the two symbols of a group as the group. -/
theorem decodeFrom_pair {c : Config} (hnodup : c.alphabet.toList.Nodup) (acc : AccWord)
    (n : CountWord) {v : Nat} (hv : v ≤ 8280) (codes : List Byte) :
    decodeFrom c acc n none ((pairOf v).map (symbolOf c) ++ codes) =
      (decodeFrom c (decFeed acc n v).acc (decFeed acc n v).n none codes).map
        ((decFeed acc n v).bytes ++ ·) := by
  have hlow := valueOf_symbolOf hnodup (v := v % 91) (by omega)
  have hhigh := valueOf_symbolOf hnodup (v := v / 91) (by omega)
  simp only [pairOf, List.map_cons, List.map_nil, List.cons_append, List.nil_append, decodeFrom,
    hlow, hhigh, Nat.mod_add_div']

/-- The decoder reads a lone symbol as one byte. -/
theorem decodeFrom_single {c : Config} (hnodup : c.alphabet.toList.Nodup) (acc : AccWord)
    (n : CountWord) {v : Nat} (hv : v < 91) :
    decodeFrom c acc n none [symbolOf c v] = some [loneByte acc n (BitVec.ofNat 7 v)] := by
  simp only [decodeFrom, valueOf_symbolOf hnodup hv]

theorem loneByte_eq {acc : AccWord} {n : CountWord} {v : Nat} (h : DecHeldBits acc n)
    (hv : v < 91) :
    [loneByte acc n (BitVec.ofNat 7 v)] = lowBytes 1 (acc.toNat + v * 2 ^ n.toNat) := by
  have hwiden : zext24 (BitVec.ofNat 7 v) = BitVec.ofNat 24 v :=
    BitVec.eq_of_toNat_eq (by simp [zext24]; omega)
  obtain ⟨hacc, hn⟩ := h
  rw [loneByte, hwiden, ← insert_toNat acc n.toNat v 7 hacc (by omega) (by omega)]
  exact drain_bytes 1 _

/-- The decoder's width for a pair the encoder flushes goes less than a byte above the bits held. -/
theorem HeldBits.groupWidth_lt {acc : AccWord} {n : CountWord} (h : HeldBits acc n)
    (hwide : 7 < n.toNat ∨ 91 ≤ acc.toNat) : groupWidth acc.toNat < n.toNat + 8 := by
  rcases hwide with hn | hacc
  · have hwidth := groupWidth_cases acc.toNat
    omega
  · have hn := h.seven_le_of_acc hacc
    have hlt := h.acc_lt
    rw [groupWidth, if_pos (by omega)]
    omega

/-- One more byte above the bits held on both sides is one more byte not yet decoded. -/
theorem lowBytes_feed {accd acc : AccWord} {nd n : CountWord} (hd : DecHeldBits accd nd)
    (h : HeldBits acc n) {k : Nat} (hk : nd.toNat + n.toNat = 8 * k) (b : Byte) :
    lowBytes (k + 1) (accd.toNat + (acc.toNat + b.toNat * 2 ^ n.toNat) * 2 ^ nd.toNat) =
      lowBytes k (accd.toNat + acc.toNat * 2 ^ nd.toNat) ++ [b] := by
  have hpow : 2 ^ (nd.toNat + n.toNat) = 256 ^ k := by rw [hk, Nat.pow_mul]
  have hlt := add_mul_two_pow_lt hd.fits h.fits
  rw [hpow] at hlt
  rw [← lowBytes_succ_of_lt b hlt, ← hpow, Nat.pow_add]
  congr 1
  ring

/-- Decoding a flush gives the whole bytes of the bits held on both sides. -/
theorem decodeFrom_flush {c : Config} (hnodup : c.alphabet.toList.Nodup) {accd acc : AccWord}
    {nd n : CountWord} (hd : DecHeldBits accd nd) (h : HeldBits acc n) {k : Nat}
    (hk : nd.toNat + n.toNat = 8 * k) {vals : List Nat} (hflush : Flushes acc n vals) :
    decodeFrom c accd nd none (vals.map (symbolOf c)) =
      some (lowBytes k (accd.toNat + acc.toNat * 2 ^ nd.toNat)) := by
  have hbound := hd.bound
  cases hflush with
  | nothing hn =>
    obtain rfl : k = 0 := by omega
    rfl
  | pair hn hwide =>
    have hacc := h.acc_lt
    have hfeed := decFeed_pairFeeds hd (v := acc.toNat) (by omega)
    have hwidth := groupWidth_cases acc.toNat
    have hless := h.groupWidth_lt hwide
    have hheld := h.bound
    have hcount : (nd.toNat + groupWidth acc.toNat) / 8 = k := by omega
    rw [← List.append_nil (List.map _ _), decodeFrom_pair hnodup accd nd (by omega), hfeed.bytes,
      hcount]
    simp [decodeFrom]
  | single hpos hn hlt =>
    obtain rfl : k = 1 := by omega
    rw [← loneByte_eq hd hlt]
    exact decodeFrom_single hnodup accd nd hlt

/-- Decoding the rest of an encode call gives the whole bytes of the bits held on both sides, then
the bytes the encoder was still to take; induction over these. -/
theorem decodeFrom_encodeFrom {c : Config} (hnodup : c.alphabet.toList.Nodup) {accd acc : AccWord}
    {nd n : CountWord} (hd : DecHeldBits accd nd) (h : HeldBits acc n) {k : Nat}
    (hk : nd.toNat + n.toNat = 8 * k) (x : List Byte) :
    decodeFrom c accd nd none (encodeFrom c acc n x) =
      some (lowBytes k (accd.toNat + acc.toNat * 2 ^ nd.toNat) ++ x) := by
  induction x generalizing accd nd acc n k with
  | nil =>
    rw [encodeFrom, List.append_nil]
    exact decodeFrom_flush hnodup hd h hk (flushVals_flushes h)
  | cons b rest ih =>
    have hfeed := encFeed_feeds h b
    have hheld := hfeed.heldBits h
    rw [List.append_cons, ← lowBytes_feed hd h hk b, encodeFrom]
    generalize encFeed acc n b = f at hfeed hheld ⊢
    cases hfeed with
    | @keeps acc' n' _ hn hacc =>
      rw [List.map_nil, List.nil_append, ih hd hheld (k := k + 1) (by simp only; omega), hacc]
    | @emits v acc' n' _ hv hn hacc =>
      have hpair := decFeed_pairFeeds hd hv
      have hleft := hpair.n
      obtain ⟨m, hm⟩ : ∃ m, k + 1 = (nd.toNat + groupWidth v) / 8 + m :=
        Nat.exists_eq_add_of_le (by omega)
      rw [decodeFrom_pair hnodup accd nd hv,
        ih (hpair.decHeldBits hd hv) hheld (k := m) (by simp only; omega), Option.map_some,
        ← List.append_assoc, hpair.bytes_append, hacc, hm]

/-- Decoding an encoding gives the input (42_decoder.md R171). -/
theorem decodeBytes_encodeBytes {c : Config} (hwf : c.wf) (x : List Byte) :
    decodeBytes c (encodeBytes c x) = some x :=
  decodeFrom_encodeFrom hwf.1 DecHeldBits.zero HeldBits.zero (k := 0) rfl x

theorem symbolOf_mem_alphabet (c : Config) {v : Nat} (h : v ≤ 90) :
    symbolOf c v ∈ c.alphabet.toList := by
  rw [symbolOf_of_lt c (Nat.lt_succ_of_le h)]
  simp

/-- Every value the rest of a call looks up stands in the alphabet (41_encoder.md R141). -/
theorem encodeFrom_mem_alphabet (c : Config) {acc : AccWord} {n : CountWord} (h : HeldBits acc n)
    (x : List Byte) : ∀ y ∈ encodeFrom c acc n x, y ∈ c.alphabet.toList := by
  induction x generalizing acc n with
  | nil =>
    rw [encodeFrom, List.forall_mem_map]
    exact fun v hv => symbolOf_mem_alphabet c ((flushVals_flushes h).vals_le h v hv)
  | cons b rest ih =>
    have hfeed := encFeed_feeds h b
    rw [encodeFrom, List.forall_mem_append, List.forall_mem_map]
    exact ⟨fun v hv => symbolOf_mem_alphabet c (hfeed.vals_le v hv), ih (hfeed.heldBits h)⟩

/-- Settles O46: the decoding of an encoding gives the input back. -/
theorem encodingIsInjectiveAndInTheAlphabet : Obligations.EncodingIsInjectiveAndInTheAlphabet := by
  refine fun c hwf => ⟨fun x y h => ?_, fun x => encodeFrom_mem_alphabet c HeldBits.zero x⟩
  have hdecode := decodeBytes_encodeBytes hwf x
  rw [h, decodeBytes_encodeBytes hwf y] at hdecode
  exact (Option.some.inj hdecode).symm

end Sys2Proof.Machine
end

section
/-! The decoder's group rule and its loop (42_decoder.md R164, R165, R166). -/

namespace Sys2Proof.Machine

/-- Settles O52: the rule is the definition's, and it reads back the width the encoder's rule
gives. -/
theorem decoderMirrorsTheGroupWidth : Obligations.DecoderMirrorsTheGroupWidth :=
  ⟨fun _ => rfl, groupWidth_encGroup⟩

/-- Every value up to 8280 is a group of the encoder, with the decoder's width (42_decoder.md
R165). -/
theorem exists_encGroup_eq {b : Nat} (h : b ≤ 8280) : ∃ a, encGroup a = (b, groupWidth b) := by
  obtain ⟨-, hgroups⟩ := encGroupGivesExactlyTheGroups
  rw [hgroups, groupWidth]
  split <;> omega

/-- Settles O53: a pair of values is a number in base 91, its digits unique. -/
theorem everyPairIsAWellFormedGroup : Obligations.EveryPairIsAWellFormedGroup := by
  refine ⟨fun v1 d hv1 hd => ?_, fun b hb => ⟨b % 91, b / 91, ?_, fun v1 d hv1 hd hpair => ?_⟩⟩
  · have hle : v1 + 91 * d ≤ 8280 := by omega
    exact ⟨hle, lt_two_pow_groupWidth hle, exists_encGroup_eq hle⟩
  · omega
  · omega

/-- The loop given passes enough drains the whole bytes of the bits held. -/
theorem decLoop_eq_drain {passes n : Nat} (acc : AccWord) (h : n / 8 ≤ passes) :
    decLoop passes acc n = ((drain (n / 8) acc).1, (drain (n / 8) acc).2, n % 8) := by
  induction passes generalizing acc n with
  | zero =>
    have hbits : n % 8 = n := Nat.mod_eq_of_lt (by omega)
    rw [Nat.le_zero.1 h, hbits]
    rfl
  | succ p ih =>
    by_cases hn : n ≥ 8
    · have hbytes : n / 8 = (n - 8) / 8 + 1 := by omega
      have hbits : n % 8 = (n - 8) % 8 := by omega
      rw [decLoop, if_pos hn, ih (acc >>> 8) (by omega), hbytes, hbits, drain]
    · have hbytes : n / 8 = 0 := by omega
      have hbits : n % 8 = n := by omega
      rw [decLoop, if_neg hn, hbytes, hbits, drain]

theorem decFeed_n_toNat (acc : AccWord) (n : CountWord) (b : Nat) :
    (decFeed acc n b).n.toNat = (n.toNat + groupWidth b) % 8 :=
  Nat.mod_eq_of_lt (by omega)

/-- Settles O54: at most 7 bits held and a group make 13 to 21 bits, one or two whole bytes. -/
theorem decoderLoopRunsOnceOrTwice : Obligations.DecoderLoopRunsOnceOrTwice := by
  intro acc n b passes hn hpasses
  have hwidth := groupWidth_cases b
  rw [decLoop_eq_drain _ (by omega), decFeed_bytes_length, decFeed_n_toNat]
  exact ⟨rfl, by omega, by omega⟩

end Sys2Proof.Machine
end

section
/-! Which streams decode, and to how many bytes (42_decoder.md R170, R174, R175). -/

namespace Sys2Proof.Machine

theorem decodeFrom_of_miss {c : Config} (acc : AccWord) (n : CountWord) (half : Option Nat)
    {x : Byte} (rest : List Byte) (h : valueOf c x = none) :
    decodeFrom c acc n half (x :: rest) = none := by
  simp only [decodeFrom, h]

theorem decodeFrom_of_first {c : Config} (acc : AccWord) (n : CountWord) {x : Byte} {d : Nat}
    (rest : List Byte) (h : valueOf c x = some d) :
    decodeFrom c acc n none (x :: rest) = decodeFrom c acc n (some d) rest := by
  simp only [decodeFrom, h]

theorem decodeFrom_of_second {c : Config} (acc : AccWord) (n : CountWord) (v : Nat) {x : Byte}
    {d : Nat} (rest : List Byte) (h : valueOf c x = some d) :
    decodeFrom c acc n (some v) (x :: rest) =
      (decodeFrom c (decFeed acc n (v + d * 91)).acc (decFeed acc n (v + d * 91)).n none rest).map
        ((decFeed acc n (v + d * 91)).bytes ++ ·) := by
  simp only [decodeFrom, h]

/-- The rest of a decode call is defined when every symbol still to come hits. -/
theorem decodeFrom_isSome_iff (c : Config) (acc : AccWord) (n : CountWord) (half : Option Nat)
    (codes : List Byte) :
    (decodeFrom c acc n half codes).isSome = true ↔ ∀ x ∈ codes, valueOf c x ≠ none := by
  induction codes generalizing acc n half with
  | nil => cases half <;> simp [decodeFrom]
  | cons x rest ih =>
    rw [List.forall_mem_cons]
    cases hx : valueOf c x with
    | none => simp [decodeFrom_of_miss acc n half rest hx]
    | some d =>
      cases half with
      | none => simp [decodeFrom_of_first acc n rest hx, ih]
      | some v => simp [decodeFrom_of_second acc n v rest hx, ih]

/-- Settles O58: the general fact from nothing held; the rule's examples are runs of the model. -/
theorem everyAlphabetStreamDecodes : Obligations.EveryAlphabetStreamDecodes := by
  refine ⟨fun c codes => decodeFrom_isSome_iff c 0 0 none codes, ?_⟩
  decide

/-- The symbols of a call from its last whole pair: those to come and the one held. -/
def symbolsLeft (half : Option Nat) (codes : List Byte) : Nat := half.toList.length + codes.length

/-- The bounds for the rest of a call: of the bits held, and 13 or 14 for each pair still to
come. -/
theorem decodeFrom_length_bounds {c : Config} {acc : AccWord} {n : CountWord} {half : Option Nat}
    {codes ys : List Byte} (hn : n.toNat ≤ 7) (h : decodeFrom c acc n half codes = some ys) :
    (n.toNat + 13 * (symbolsLeft half codes / 2)) / 8 + symbolsLeft half codes % 2 ≤ ys.length ∧
    ys.length ≤ (n.toNat + 14 * (symbolsLeft half codes / 2)) / 8 + symbolsLeft half codes % 2 := by
  induction codes generalizing acc n half ys with
  | nil =>
    cases half with
    | none =>
      cases h
      simp only [symbolsLeft, Option.toList, List.length_nil]
      omega
    | some v =>
      cases h
      simp only [symbolsLeft, Option.toList, List.length_nil, List.length_singleton]
      omega
  | cons x rest ih =>
    cases hx : valueOf c x with
    | none => rw [decodeFrom_of_miss acc n half rest hx] at h; cases h
    | some d =>
      cases half with
      | none =>
        rw [decodeFrom_of_first acc n rest hx] at h
        have hcount : symbolsLeft none (x :: rest) = symbolsLeft (some d) rest := by
          simp [symbolsLeft, Nat.add_comm]
        rw [hcount]
        exact ih hn h
      | some v =>
        rw [decodeFrom_of_second acc n v rest hx, Option.map_eq_some_iff] at h
        obtain ⟨zs, hrest, rfl⟩ := h
        have hwidth := groupWidth_cases (v + d * 91)
        have hleft := decFeed_n_toNat acc n (v + d * 91)
        have hbounds := ih (by omega) hrest
        have hcount : symbolsLeft (some v) (x :: rest) = symbolsLeft none rest + 2 := by
          simp [symbolsLeft]
          omega
        rw [List.length_append, decFeed_bytes_length, hcount]
        omega

/-- Settles O57: the bounds of the rest of a call with nothing held. -/
theorem decodedLengthBounds : Obligations.DecodedLengthBounds := by
  intro c codes ys h
  have hcount : symbolsLeft none codes = codes.length := Nat.zero_add _
  simpa [hcount] using decodeFrom_length_bounds DecHeldBits.zero.bound h

end Sys2Proof.Machine
end

section
/-! The decoder's commands one by one (42_decoder.md R161, R162, R163, R167, R169). -/

namespace Sys2Proof.Machine

theorem exec_decStart {s : State} (h : s.mode = .idle) :
    exec .decStart s = .next (decStartEffect s) :=
  exec_of_executes (by rw [h]; rfl)

theorem exec_decSym {s : State} (c : Byte) (h : s.mode = .dec) :
    exec (.decSym c) s = .next (decSymEffect c s) :=
  exec_of_executes (by rw [h]; rfl)

theorem exec_decEnd {s : State} (h : s.mode = .dec) : exec .decEnd s = .next (decEndEffect s) :=
  exec_of_executes (by rw [h]; rfl)

theorem decSymEffect_of_first {c : Byte} {d : Nat} {s : State} (hvalue : valueOf s.cfg c = some d)
    (hhalf : s.have1 = false) : decSymEffect c s = s.holdHalf d := by
  simp only [decSymEffect, hvalue, hhalf, Bool.false_eq_true, if_false]

theorem decSymEffect_of_second {c : Byte} {d : Nat} {s : State}
    (hvalue : valueOf s.cfg c = some d) (hhalf : s.have1 = true) :
    decSymEffect c s = s.completePair c d := by
  simp only [decSymEffect, hvalue, hhalf, if_true]

theorem decSym_stopsOutside (c : Byte) : StopsOutside [.dec] (.decSym c) :=
  stopsOutside_of_executes fun _ h => List.mem_singleton.2 (mode_of_decSym_executes h)

/-- A miss is the first thing the command looks for, whichever half the symbol is. -/
theorem exec_decSym_of_miss {c : Byte} {s : State} (hmode : s.mode = .dec)
    (hmiss : valueOf s.cfg c = none) :
    exec (.decSym c) s = .next (s.raise .invalidSymbol ((0x5 : BitVec 4) ++ c)) := by
  rw [exec_decSym c hmode, decSymEffect_of_miss hmiss]
  rfl

/-- Settles O47: `DEC.START` executes in `IDLE` only, and its effect is the state given. -/
theorem decStartClearsTheAccumulator : Obligations.DecStartClearsTheAccumulator :=
  ⟨bareWord_of_noOperand rfl rfl fun imm => decode_append _ imm,
    stopsOutside_of_executes fun m h =>
      have ⟨_, _, hdecStart, _⟩ := mode_of_executes m
      List.mem_singleton.2 (hdecStart h),
    fun _ => exec_decStart⟩

/-- Settles O50: the table check comes before the half is looked at. -/
theorem decSymFaultsOnAMiss : Obligations.DecSymFaultsOnAMiss := fun _ _ => exec_decSym_of_miss

/-- Settles O48: with no half held a hit is held. -/
theorem decSymHoldsTheFirstOfAPair : Obligations.DecSymHoldsTheFirstOfAPair := by
  refine fun c => ⟨rfl, decSym_stopsOutside c, fun s hmode hhalf =>
    ⟨exec_decSym_of_miss hmode, fun d hvalue => ⟨Nat.le_of_lt_succ (valueOf_lt hvalue), ?_⟩⟩⟩
  rw [exec_decSym c hmode, decSymEffect_of_first hvalue hhalf]
  rfl

theorem completePair_of_full {c : Byte} {d : Nat} {s : State}
    (h : s.hasRoom (decFeed s.acc s.n (s.v1.toNat + d * 91)).bytes.length = false) :
    s.completePair c d = s.raise .outOfMemory (encode (.decSym c)) := by
  rw [State.completePair, emit_of_full h]

theorem completePair_of_room {c : Byte} {d : Nat} {s : State} {f : DecFeed}
    (hf : decFeed s.acc s.n (s.v1.toNat + d * 91) = f) (h : s.hasRoom f.bytes.length = true) :
    s.completePair c d =
      { s.appendAll f.bytes with
        acc := f.acc, n := f.n, have1 := false, v1 := 0,
        resp := some (.ok (BitVec.ofNat 8 f.bytes.length)) } := by
  rw [State.completePair, hf, emit_of_room h]
  rfl

theorem lowByte_ushiftRight (a : AccWord) (k : Nat) : lowByte (a >>> k) = a.extractLsb' k 8 :=
  BitVec.eq_of_toNat_eq (by simp [lowByte])

/-- A pair that completes one byte. -/
theorem decFeed_of_one {acc : AccWord} {n : CountWord} {b : Nat}
    (h : (n.toNat + groupWidth b) / 8 = 1) :
    decFeed acc n b =
      { bytes := [(acc ||| (BitVec.ofNat 24 b <<< n.toNat)).extractLsb' 0 8]
        acc := (acc ||| (BitVec.ofNat 24 b <<< n.toNat)) >>> 8
        n := BitVec.ofNat 5 (n.toNat + groupWidth b - 8) } := by
  have hleft : (n.toNat + groupWidth b) % 8 = n.toNat + groupWidth b - 8 := by omega
  rw [decFeed, h, hleft, ← lowByte_ushiftRight]
  rfl

/-- A pair that completes two bytes. -/
theorem decFeed_of_two {acc : AccWord} {n : CountWord} {b : Nat}
    (h : (n.toNat + groupWidth b) / 8 = 2) :
    decFeed acc n b =
      { bytes := [(acc ||| (BitVec.ofNat 24 b <<< n.toNat)).extractLsb' 0 8,
          (acc ||| (BitVec.ofNat 24 b <<< n.toNat)).extractLsb' 8 8]
        acc := (acc ||| (BitVec.ofNat 24 b <<< n.toNat)) >>> 16
        n := BitVec.ofNat 5 (n.toNat + groupWidth b - 16) } := by
  have hleft : (n.toNat + groupWidth b) % 8 = n.toNat + groupWidth b - 16 := by omega
  rw [decFeed, h, hleft, ← lowByte_ushiftRight, ← lowByte_ushiftRight, BitVec.shiftRight_add _ 8 8]
  rfl

/-- Settles O49: the pair completes one byte or two, by the bits it makes with those held; these are
taken if they have room. -/
theorem decSymCompletesThePair : Obligations.DecSymCompletesThePair := by
  refine fun c => ⟨rfl, decSym_stopsOutside c, fun s hmode hhalf hn =>
    ⟨exec_decSym_of_miss hmode, fun d b g a hvalue hb hg ha => ?_⟩⟩
  replace hg : g = groupWidth b := hg
  have hwidth := groupWidth_cases b
  have hlength := decFeed_bytes_length s.acc s.n b
  subst hb hg ha
  rw [exec_decSym c hmode, decSymEffect_of_second hvalue hhalf]
  refine ⟨fun hfull => ?_, fun hone hfits => ?_, fun htwo hfits => ?_⟩
  · refine congrArg _ (completePair_of_full ?_)
    rw [hlength, s.hasRoom_pos (by omega), hfull]
  · rw [completePair_of_room (decFeed_of_one (by omega)) ((s.hasRoom_pos one_pos).trans hfits)]
    rfl
  · rw [completePair_of_room (decFeed_of_two (by omega)) ((s.hasRoom_pos two_pos).trans hfits)]
    rfl

theorem decEndEffect_of_none {s : State} (h : s.have1 = false) :
    decEndEffect s =
      { s with
        acc := 0, n := 0, have1 := false, v1 := 0, mode := .idle, resp := some (.ok 0) } := by
  rw [decEndEffect, h]
  rfl

theorem decEndEffect_of_full {s : State} (h : s.have1 = true) (hfull : s.hasRoom 1 = false) :
    decEndEffect s = s.raise .outOfMemory (encode .decEnd) := by
  rw [decEndEffect, if_pos h]
  exact emit_of_full hfull

theorem decEndEffect_of_room {s : State} (h : s.have1 = true) (hroom : s.hasRoom 1 = true) :
    decEndEffect s =
      { s.appendByte (loneByte s.acc s.n s.v1) with
        acc := 0, n := 0, have1 := false, v1 := 0, mode := .idle, resp := some (.ok 1) } := by
  rw [decEndEffect, if_pos h]
  exact emit_of_room hroom

/-- Settles O51: with a half held the lone byte is emitted if it has room; the bits held go either
way. -/
theorem decEndFoldsInTheLoneSymbol : Obligations.DecEndFoldsInTheLoneSymbol := by
  refine ⟨bareWord_of_noOperand rfl rfl fun imm => decode_append _ imm,
    stopsOutside_of_executes fun m h =>
      have ⟨_, _, _, hdecEnd, _⟩ := mode_of_executes m
      List.mem_singleton.2 (hdecEnd h),
    fun s hmode => ?_⟩
  rw [exec_decEnd hmode, ← s.hasRoom_pos one_pos]
  refine ⟨fun hnone => congrArg _ (decEndEffect_of_none hnone),
    fun hhalf hfull => congrArg _ (decEndEffect_of_full hhalf hfull), fun hhalf hroom => ?_⟩
  rw [decEndEffect_of_room hhalf hroom, ← lowByte_ushiftRight]
  rfl

end Sys2Proof.Machine
end

section
/-! A complete decode call (42_decoder.md R170, R171). -/

namespace Sys2Proof.Machine

/-- A sequence goes on from where its first part leads. -/
theorem execAll_append_of_next {cmds : List Instr} {s t : State} (rest : List Instr)
    (h : execAll cmds s = .next t) : execAll (cmds ++ rest) s = execAll rest t := by
  induction cmds generalizing s with
  | nil => cases h; rfl
  | cons i cmds ih =>
    obtain ⟨u, hu, ht⟩ := execAll_cons_inv h
    exact (execAll_cons_of_next _ hu).trans (ih ht)

/-- In mode `FAULT` commands other than `CLR` change the response only (60_exceptions.md R235). -/
theorem execAll_of_fault {cmds : List Instr} {s : State} (hfault : s.mode = .fault)
    (hclr : .clr ∉ cmds) : ∃ r, execAll cmds s = .next { s with resp := r } := by
  induction cmds generalizing s with
  | nil => exact ⟨s.resp, rfl⟩
  | cons i rest ih =>
    obtain ⟨hi, hrest⟩ := not_or.1 (List.mem_cons.not.1 hclr)
    have hrefuse := exec_of_refused ((legality_refused_iff i s.mode).2 ⟨hfault, Ne.symm hi⟩)
    obtain ⟨r, hr⟩ := ih (s := s.refuse) hfault hrest
    exact ⟨r, (execAll_cons_of_next rest hrefuse).trans hr⟩

/-- No sequence changes the parameters (10_state.md R20). -/
theorem execAll_cfg {cmds : List Instr} {s t : State} (h : execAll cmds s = .next t) :
    t.cfg = s.cfg :=
  execAll_relates (R := fun s t => t.cfg = s.cfg) (fun _ => rfl)
    (fun _ _ _ hsu hut => hut.trans hsu)
    (fun i _ s t hexec => (commandsWriteOnlyTheirRegisters i s t hexec).1) h

/-- The value held of a pair not yet complete (42_decoder.md R162). -/
def State.half (s : State) : Option Nat := if s.have1 then some s.v1.toNat else none

theorem State.half_of_false {s : State} (h : s.have1 = false) : s.half = none := by
  rw [State.half, h]
  rfl

theorem State.half_of_true {s : State} (h : s.have1 = true) : s.half = some s.v1.toNat :=
  if_pos h

/-- What the rest of a decode call appends from the bits and the half the machine holds. -/
def State.decodeRest (s : State) (codes : List Byte) : Option (List Byte) :=
  decodeFrom s.cfg s.acc s.n s.half codes

/-- From `s` to `t` a decode call goes on, `bytes` are appended and `k` symbols taken. -/
structure DecodeGoesOn (bytes : List Byte) (k : Nat) (s t : State) : Prop where
  mode : t.mode = .dec
  err  : t.err = s.err
  cfg  : t.cfg = s.cfg
  len  : t.len = s.len + bytes.length
  copy : t.ownedCopy = s.ownedCopy ++ bytes
  half : t.have1.toNat = (s.have1.toNat + k) % 2

theorem DecodeGoesOn.refl {s : State} (h : s.mode = .dec) : DecodeGoesOn [] 0 s s :=
  ⟨h, rfl, rfl, rfl, (List.append_nil _).symm, (Nat.mod_eq_of_lt s.have1.toNat_lt).symm⟩

theorem DecodeGoesOn.trans {bytes bytes' : List Byte} {k k' : Nat} {s t u : State}
    (hst : DecodeGoesOn bytes k s t) (htu : DecodeGoesOn bytes' k' t u) :
    DecodeGoesOn (bytes ++ bytes') (k + k') s u where
  mode := htu.mode
  err  := htu.err.trans hst.err
  cfg  := htu.cfg.trans hst.cfg
  len  := by rw [htu.len, hst.len, List.length_append, Nat.add_assoc]
  copy := by rw [htu.copy, hst.copy, List.append_assoc]
  half := by rw [htu.half, hst.half, Nat.mod_add_mod, Nat.add_assoc]

/-- A first symbol that hits is held, and the call has the same bytes to append as before. -/
theorem holdHalf_goesOn {x : Byte} {d : Nat} {s : State} (rest : List Byte) (hmode : s.mode = .dec)
    (hvalue : valueOf s.cfg x = some d) (hhalf : s.have1 = false) :
    DecodeGoesOn [] 1 s (s.holdHalf d) ∧
    s.decodeRest (x :: rest) = (s.holdHalf d).decodeRest rest := by
  have hv1 : (BitVec.ofNat 7 d).toNat = d :=
    Nat.mod_eq_of_lt ((valueOf_lt hvalue).trans (by decide))
  have hheld : (s.holdHalf d).half = some d := congrArg some hv1
  refine ⟨⟨hmode, rfl, rfl, rfl, (List.append_nil _).symm, ?_⟩, ?_⟩
  · rw [hhalf]
    rfl
  · rw [State.decodeRest, State.decodeRest, s.half_of_false hhalf, hheld,
      decodeFrom_of_first s.acc s.n rest hvalue]
    rfl

/-- A second symbol that hits completes the pair: where its bytes have room they are appended, and
the call has the others still to append. -/
theorem completePair_goesOn {x : Byte} {d : Nat} {s : State} {rest ys : List Byte}
    (hmode : s.mode = .dec) (hvalue : valueOf s.cfg x = some d) (hhalf : s.have1 = true)
    (hdecode : s.decodeRest (x :: rest) = some ys)
    (hroom : s.cfg.fits (s.len + ys.length) = true) :
    ∃ bytes zs, DecodeGoesOn bytes 1 s (s.completePair x d) ∧
      (s.completePair x d).decodeRest rest = some zs ∧ ys = bytes ++ zs := by
  rw [State.decodeRest, s.half_of_true hhalf, decodeFrom_of_second _ _ _ rest hvalue,
    Option.map_eq_some_iff] at hdecode
  obtain ⟨zs, hzs, rfl⟩ := hdecode
  rw [List.length_append] at hroom
  rw [completePair_of_room rfl (State.hasRoom_of_fits (Nat.le_add_right _ _) hroom)]
  refine ⟨_, zs, ⟨(State.appendAll_mode _ s).trans hmode, State.appendAll_err _ s,
    State.appendAll_cfg _ s, State.appendAll_len _ s, State.ownedCopy_appendAll _ s, ?_⟩, ?_, rfl⟩
  · rw [hhalf]
    rfl
  · rw [← hzs, ← s.appendAll_cfg]
    rfl

/-- One symbol of a stream that decodes. -/
theorem exec_decSym_goesOn {x : Byte} {s : State} {rest ys : List Byte} (hmode : s.mode = .dec)
    (hdecode : s.decodeRest (x :: rest) = some ys)
    (hroom : s.cfg.fits (s.len + ys.length) = true) :
    ∃ t bytes zs, exec (.decSym x) s = .next t ∧ DecodeGoesOn bytes 1 s t ∧
      t.decodeRest rest = some zs ∧ ys = bytes ++ zs := by
  cases hvalue : valueOf s.cfg x with
  | none =>
    rw [State.decodeRest, decodeFrom_of_miss _ _ _ rest hvalue] at hdecode
    cases hdecode
  | some d =>
    rw [exec_decSym x hmode]
    cases hhalf : s.have1 with
    | false =>
      obtain ⟨hgoes, hrest⟩ := holdHalf_goesOn rest hmode hvalue hhalf
      rw [decSymEffect_of_first hvalue hhalf]
      exact ⟨_, [], ys, rfl, hgoes, hrest.symm.trans hdecode, rfl⟩
    | true =>
      obtain ⟨bytes, zs, hgoes, hrest, hys⟩ := completePair_goesOn hmode hvalue hhalf hdecode hroom
      rw [decSymEffect_of_second hvalue hhalf]
      exact ⟨_, bytes, zs, rfl, hgoes, hrest, hys⟩

/-- The symbols of a stream that decodes append all its bytes but the one a half held is worth;
induction over the symbols. -/
theorem execAll_decSyms {codes : List Byte} {s : State} {ys : List Byte} (hmode : s.mode = .dec)
    (hdecode : s.decodeRest codes = some ys) (hroom : s.cfg.fits (s.len + ys.length) = true) :
    ∃ t bytes zs, execAll (codes.map .decSym) s = .next t ∧ DecodeGoesOn bytes codes.length s t ∧
      t.decodeRest [] = some zs ∧ ys = bytes ++ zs := by
  induction codes generalizing s ys with
  | nil => exact ⟨s, [], ys, rfl, .refl hmode, hdecode, rfl⟩
  | cons x rest ih =>
    obtain ⟨t, bytes, zs, hexec, hgoes, hrest, rfl⟩ := exec_decSym_goesOn hmode hdecode hroom
    rw [List.length_append, ← Nat.add_assoc, ← hgoes.len, ← hgoes.cfg] at hroom
    obtain ⟨u, bytes', ws, hrun, hgoes', hend, rfl⟩ := ih hgoes.mode hrest hroom
    refine ⟨u, bytes ++ bytes', ws, (execAll_cons_of_next _ hexec).trans hrun, ?_, hend,
      (List.append_assoc _ _ _).symm⟩
    rw [List.length_cons, Nat.add_comm]
    exact hgoes.trans hgoes'

/-- Where a decode call leads from `s`: it is over and `ys` is appended. -/
structure DecodeCallEnds (ys : List Byte) (s t : State) : Prop where
  mode : t.mode = .idle
  err  : t.err = s.err
  copy : t.ownedCopy = s.ownedCopy ++ ys

/-- `DEC.END` appends what is left of the call. -/
theorem decEndEffect_ends {s : State} {ys : List Byte} (hdecode : s.decodeRest [] = some ys)
    (hroom : s.cfg.fits (s.len + ys.length) = true) : DecodeCallEnds ys s (decEndEffect s) := by
  cases hhalf : s.have1 with
  | false =>
    rw [State.decodeRest, s.half_of_false hhalf] at hdecode
    cases hdecode
    rw [decEndEffect_of_none hhalf]
    exact ⟨rfl, rfl, (List.append_nil _).symm⟩
  | true =>
    rw [State.decodeRest, s.half_of_true hhalf] at hdecode
    cases hdecode
    rw [decEndEffect_of_room hhalf (State.hasRoom_of_fits le_rfl hroom), BitVec.ofNat_toNat,
      BitVec.setWidth_eq]
    exact ⟨rfl, rfl, State.ownedCopy_appendAll [_] s⟩

/-- A decode call of a stream that decodes, with room for its bytes. -/
theorem execAll_decodeCall {codes ys : List Byte} {s : State} (hidle : s.mode = .idle)
    (hdecode : decodeBytes s.cfg codes = some ys) (hroom : s.cfg.fits (s.len + ys.length) = true) :
    ∃ t, execAll (decodeCall codes) s = .next t ∧ DecodeCallEnds ys s t := by
  obtain ⟨t, bytes, zs, hrun, hgoes, hrest, rfl⟩ :=
    execAll_decSyms (s := decStartEffect s) rfl hdecode hroom
  rw [List.length_append, ← Nat.add_assoc] at hroom
  have hends := decEndEffect_ends hrest (by rw [hgoes.cfg, hgoes.len]; exact hroom)
  refine ⟨decEndEffect t, ?_, hends.mode, hends.err.trans hgoes.err, ?_⟩
  · rw [decodeCall, execAll_cons_of_next _ (exec_decStart hidle), execAll_append_of_next _ hrun]
    exact execAll_cons_of_next [] (exec_decEnd hgoes.mode)
  · rw [hends.copy, hgoes.copy, List.append_assoc]
    rfl

/-- A miss ends the call for good: the rest of it is refused. -/
theorem execAll_of_miss {c : Byte} {s : State} (post : List Byte) (hmode : s.mode = .dec)
    (hmiss : valueOf s.cfg c = none) :
    ∃ r, execAll ((c :: post).map .decSym ++ [.decEnd]) s =
      .next { s.raise .invalidSymbol ((0x5 : BitVec 4) ++ c) with resp := r } := by
  obtain ⟨r, hr⟩ := execAll_of_fault (cmds := post.map .decSym ++ [.decEnd])
    (s := s.raise .invalidSymbol ((0x5 : BitVec 4) ++ c)) rfl (by simp)
  exact ⟨r, (execAll_cons_of_next _ (exec_decSym_of_miss hmode hmiss)).trans hr⟩

/-- Symbols that hit, at most one and with no half held, append nothing. -/
theorem execAll_lone {codes : List Byte} {s : State} (hmode : s.mode = .dec)
    (hhalf : s.have1 = false) (hlone : codes.length ≤ 1)
    (hhits : ∀ x ∈ codes, valueOf s.cfg x ≠ none) :
    ∃ t, execAll (codes.map .decSym) s = .next t ∧ DecodeGoesOn [] codes.length s t := by
  match codes with
  | [] => exact ⟨s, rfl, .refl hmode⟩
  | [x] =>
    obtain ⟨d, hvalue⟩ := Option.ne_none_iff_exists'.1 (hhits x List.mem_cons_self)
    obtain ⟨hgoes, -⟩ := holdHalf_goesOn [] hmode hvalue hhalf
    refine ⟨_, execAll_cons_of_next [] (exec_decSym x hmode), ?_⟩
    rwa [decSymEffect_of_first hvalue hhalf]
  | _ :: _ :: _ => simp at hlone

/-- Symbols that hit append the bytes of the complete pairs among them. -/
theorem execAll_pairs {pre ys : List Byte} {s : State} (hmode : s.mode = .dec)
    (hhalf : s.have1 = false) (hhits : ∀ x ∈ pre, valueOf s.cfg x ≠ none)
    (hdecode : s.decodeRest (pre.take (2 * (pre.length / 2))) = some ys)
    (hroom : s.cfg.fits (s.len + ys.length) = true) :
    ∃ t, execAll (pre.map .decSym) s = .next t ∧ DecodeGoesOn ys pre.length s t := by
  obtain ⟨t, bytes, zs, hrun, hgoes, hrest, rfl⟩ := execAll_decSyms hmode hdecode hroom
  have hheld : t.have1 = false := by
    have hparity := hgoes.half
    rw [hhalf, List.length_take, Nat.min_eq_left (Nat.mul_div_le _ _)] at hparity
    exact Bool.toNat_eq_zero.1 (hparity.trans (by simp))
  rw [State.decodeRest, t.half_of_false hheld] at hrest
  cases hrest
  obtain ⟨u, hrun', hgoes'⟩ := execAll_lone (codes := pre.drop (2 * (pre.length / 2))) hgoes.mode
    hheld (by rw [List.length_drop]; omega)
    fun x hx => by rw [hgoes.cfg]; exact hhits x (List.mem_of_mem_drop hx)
  have hboth := hgoes.trans hgoes'
  rw [← List.length_append, List.take_append_drop] at hboth
  refine ⟨u, ?_, hboth⟩
  rw [← List.take_append_drop (2 * (pre.length / 2)) pre, List.map_append]
  exact (execAll_append_of_next _ hrun).trans hrun'

theorem decodeFrom_congr {c d : Config} (h : c.alphabet = d.alphabet) (acc : AccWord)
    (n : CountWord) (half : Option Nat) (codes : List Byte) :
    decodeFrom c acc n half codes = decodeFrom d acc n half codes := by
  have hvalue : valueOf c = valueOf d := by
    funext x
    rw [valueOf, valueOf, h]
  induction codes generalizing acc n half with
  | nil => rfl
  | cons x rest ih => simp only [decodeFrom, hvalue, ih]

/-- Settles O55: `DEC.START` clears what the call holds; the symbols that hit append the bytes of
their pairs, then `DEC.END` those of a half held, or a miss faults. -/
theorem decodeCallAppendsItsDecoding : Obligations.DecodeCallAppendsItsDecoding := by
  refine ⟨fun s codes ys hinv hidle hdecode hroom => ?_,
    fun s pre post ys c hinv hidle hhits hmiss hdecode hroom => ?_, fun _ => rfl,
    fun c d x h => decodeFrom_congr h 0 0 none x⟩
  · obtain ⟨t, hrun, hmode, herr, hcopy⟩ := execAll_decodeCall hidle hdecode hroom
    exact ⟨t, hrun, hmode, herr.trans (hinv.errMode.2 (by simp [hidle])), hcopy⟩
  · obtain ⟨t, hrun, hgoes⟩ :=
      execAll_pairs (s := decStartEffect s) rfl rfl hhits hdecode hroom
    obtain ⟨r, hfault⟩ := execAll_of_miss post hgoes.mode (by rw [hgoes.cfg]; exact hmiss)
    refine ⟨_, .trans ?_ hfault, rfl, rfl, rfl, hgoes.copy⟩
    rw [decodeCall, execAll_cons_of_next _ (exec_decStart hidle), List.map_append,
      List.append_assoc, execAll_append_of_next _ hrun]

/-- A fresh call starts with `OUT.RESET`. -/
theorem execAll_fresh {s : State} (cmds : List Instr) (hidle : s.mode = .idle) :
    execAll (.outReset :: cmds) s = execAll cmds (outResetEffect s) :=
  execAll_cons_of_next cmds (exec_of_executes (by rw [hidle]; rfl))

/-- A fresh encode call leaves the encoding and nothing else in the buffer. -/
theorem execAll_freshEncodeCall {s : State} (x : List Byte) (hidle : s.mode = .idle)
    (hroom : s.cfg.fits (encodeBytes s.cfg x).length = true) :
    ∃ t, execAll (freshEncodeCall x) s = .next t ∧ t.mode = .idle ∧ t.err = s.err ∧
      t.ownedCopy = encodeBytes s.cfg x := by
  obtain ⟨t, hrun, hends⟩ := execAll_encodeRest (s := encStartEffect (outResetEffect s)) x rfl
    ((Nat.zero_add _).symm ▸ hroom)
  refine ⟨t, ?_, hends.mode, hends.err, hends.copy⟩
  have hstart : exec .encStart (outResetEffect s) = .next _ := exec_encStart hidle
  rw [freshEncodeCall, execAll_fresh _ hidle, encodeCall, execAll_cons_of_next _ hstart, hrun]

/-- A fresh decode call leaves the decoding and nothing else in the buffer. -/
theorem execAll_freshDecodeCall {s : State} {codes ys : List Byte} (hidle : s.mode = .idle)
    (hdecode : decodeBytes s.cfg codes = some ys) (hroom : s.cfg.fits ys.length = true) :
    ∃ t, execAll (freshDecodeCall codes) s = .next t ∧ t.mode = .idle ∧ t.err = s.err ∧
      t.ownedCopy = ys := by
  obtain ⟨t, hrun, hends⟩ := execAll_decodeCall (s := outResetEffect s) hidle hdecode
    ((Nat.zero_add _).symm ▸ hroom)
  exact ⟨t, (execAll_fresh _ hidle).trans hrun, hends.mode, hends.err, hends.copy⟩

/-- Settles O56: decoding an encoding gives the input; on the machine the decode call reads the
symbols the encode call left, and has room because an encoding is no shorter than its input. -/
theorem decodingAnEncodingReturnsTheInput : Obligations.DecodingAnEncodingReturnsTheInput := by
  refine ⟨fun c x hwf => decodeBytes_encodeBytes hwf x, fun s x hinv hidle hroom => ?_⟩
  obtain ⟨t, hrun, hmode, herr, hcopy⟩ := execAll_freshEncodeCall x hidle hroom
  have hcfg := execAll_cfg hrun
  have hdecode : decodeBytes t.cfg t.ownedCopy = some x := by
    rw [hcfg, hcopy]
    exact decodeBytes_encodeBytes hinv.alphabetWf x
  have hlength := (encodedLengthBounds s.cfg x).1
  have hfits : t.cfg.fits x.length = true := by
    rw [hcfg]
    exact Config.fits_mono (by omega) hroom
  obtain ⟨u, hrun', hmode', herr', hcopy'⟩ := execAll_freshDecodeCall hmode hdecode hfits
  have hserr : s.err = .none := hinv.errMode.2 (by simp [hidle])
  exact ⟨t, u, hrun, hmode, hrun', hmode', (herr'.trans herr).trans hserr, hcopy'⟩

end Sys2Proof.Machine
end

section
/-! `OUT.RESET` and the borrowed views of the output buffer (43_output_buffer.md R191, R194). -/

namespace Sys2Proof.Machine

theorem exec_outReset {s : State} (h : s.mode = .idle) :
    exec .outReset s = .next (outResetEffect s) :=
  exec_of_executes (by rw [h]; rfl)

theorem mode_of_outReset_executes {m : Mode} (h : legality .outReset m = .executes) :
    m = .idle := by
  cases m with
  | idle => rfl
  | enc | dec | fault => cases h

/-- Settles O27: `OUT.RESET` executes in `IDLE` only, and its effect is the state given. -/
theorem outResetSetsTheLengthToZero : Obligations.OutResetSetsTheLengthToZero :=
  ⟨bareWord_of_noOperand rfl rfl fun imm => decode_append _ imm,
    stopsOutside_of_executes fun _ h => List.mem_singleton.2 (mode_of_outReset_executes h),
    fun _ => exec_outReset⟩

theorem State.readView_of_epoch_ne {s t : State} (i : Nat) (h : t.epoch ≠ s.epoch) :
    t.readView s.borrow i = .refused := by
  simp [State.readView, View.valid, State.borrow, h]

theorem State.readView_of_resets_ne {s t : State} (i : Nat) (h : t.resets ≠ s.resets) :
    t.readView s.borrow i = .refused := by
  simp [State.readView, View.valid, State.borrow, h]

theorem State.readView_of_same {s t : State} {i : Nat} (hresets : t.resets = s.resets)
    (hepoch : t.epoch = s.epoch) (hlen : i < s.len) :
    t.readView s.borrow i = .value (t.hostOut i) := by
  simp [State.readView, View.valid, State.borrow, hresets, hepoch, hlen]

/-- While `EPOCH` guards the buffer and no reset has come, a view reads the bytes of the owned copy:
both are the bytes stored below `LEN`. -/
theorem EpochGuardsOutput.readView {s t : State} {i : Nat} (h : EpochGuardsOutput s t)
    (hinv : s.Inv) (hresets : t.resets = s.resets) (hepoch : t.epoch = s.epoch) (hlen : i < s.len) :
    ∃ b, s.ownedCopy[i]? = some b ∧ t.readView s.borrow i = .value b := by
  obtain ⟨-, hsame⟩ := h
  obtain ⟨hsameLen, hsameBytes⟩ := hsame hepoch
  obtain ⟨b, hread⟩ := Option.isSome_iff_exists.1 (hinv.outHolds i hlen)
  have hold : s.hostOut i = b := State.hostOut_of_read hlen hread
  have hnew : t.hostOut i = b :=
    State.hostOut_of_read (hsameLen ▸ hlen) ((hsameBytes i hlen).trans hread)
  refine ⟨b, by simp [State.ownedCopy, hlen, hold], ?_⟩
  rw [State.readView_of_same hresets hepoch hlen, hnew]

theorem exec_resets {i : Instr} {s t : State} (h : exec i s = .next t) : t.resets = s.resets := by
  obtain ⟨-, -, -, hresets, -⟩ := commandsWriteOnlyTheirRegisters i s t h
  exact hresets

theorem exec_input {i : Instr} {s t : State} (h : exec i s = .next t) : t.input = s.input := by
  obtain ⟨-, hinput, -⟩ := commandsWriteOnlyTheirRegisters i s t h
  exact hinput

theorem execAll_resets {cmds : List Instr} {s t : State} (h : execAll cmds s = .next t) :
    t.resets = s.resets :=
  execAll_relates (R := fun s t => t.resets = s.resets) (fun _ => rfl)
    (fun _ _ _ hsu hut => hut.trans hsu) (fun _ _ _ _ => exec_resets) h

/-- An illegal word writes nothing of the buffer, the input and the count of resets. -/
theorem State.illegalWord_frame (w : CmdWord) (s : State) :
    (s.illegalWord w).input = s.input ∧ (s.illegalWord w).resets = s.resets ∧
    EpochGuardsOutput s (s.illegalWord w) := by
  rcases s.illegalWord_eq w with ⟨-, h⟩ | ⟨-, h⟩ <;>
    exact h ▸ ⟨rfl, rfl, le_rfl, fun _ => ⟨rfl, fun _ _ => rfl⟩⟩

/-- A word, legal or not, leaves the input and the count of resets alone, and `EPOCH` guards the
buffer. -/
theorem accept_frame {w : CmdWord} {s t : State} (h : accept w s = .next t) :
    t.input = s.input ∧ t.resets = s.resets ∧ EpochGuardsOutput s t := by
  cases hdecode : decode w with
  | illegal why =>
    rw [accept_of_illegal hdecode] at h
    cases h
    exact s.illegalWord_frame w
  | legal i =>
    rw [accept_of_legal hdecode] at h
    exact ⟨exec_input h, exec_resets h, sameEpochSameOutput [i] s t (execAll_cons_of_next [] h)⟩

/-- What the events that lead from `s` to `t` do to a view taken at `s`: each reset is counted, and
without one `EPOCH` guards the buffer. -/
def EventsGuardViews (events : List HostEvent) (s t : State) : Prop :=
  t.resets = s.resets + events.count .reset ∧ (.reset ∉ events → EpochGuardsOutput s t)

theorem EventsGuardViews.nil (s : State) : EventsGuardViews [] s s :=
  ⟨rfl, fun _ => ⟨le_rfl, fun _ => ⟨rfl, fun _ _ => rfl⟩⟩⟩

theorem EventsGuardViews.append {es fs : List HostEvent} {s u t : State}
    (hsu : EventsGuardViews es s u) (hut : EventsGuardViews fs u t) :
    EventsGuardViews (es ++ fs) s t := by
  obtain ⟨hcount, hguards⟩ := hsu
  obtain ⟨hcount', hguards'⟩ := hut
  refine ⟨by rw [hcount', hcount, List.count_append, Nat.add_assoc], fun hreset => ?_⟩
  obtain ⟨hes, hfs⟩ := not_or.1 (List.mem_append.not.1 hreset)
  exact (hguards hes).trans (hguards' hfs)

/-- A step takes one event from the input. -/
theorem step_eventsGuardViews {e : HostEvent} {rest : List HostEvent} {s u : State}
    (hinput : s.input = e :: rest) (h : step s = .next u) :
    u.input = rest ∧ EventsGuardViews [e] s u := by
  cases e with
  | reset =>
    rw [step_cons hinput] at h
    cases h
    exact ⟨rfl, rfl, fun hreset => absurd (List.mem_singleton_self _) hreset⟩
  | command w =>
    rw [step_command hinput] at h
    obtain ⟨hrest, hresets, hguards⟩ := accept_frame h
    exact ⟨hrest, hresets, fun _ => hguards⟩

/-- A run of `k + 1` steps takes an event and goes on with `k` steps. -/
theorem runSteps_succ_inv {k : Nat} {s t : State} (h : runSteps (k + 1) s = .next t) :
    ∃ e rest u, s.input = e :: rest ∧ step s = .next u ∧ runSteps k u = .next t := by
  cases hstep : step s with
  | next u =>
    cases hinput : s.input with
    | nil => rw [step_nil hinput] at hstep; cases hstep
    | cons e rest => exact ⟨e, rest, u, rfl, rfl, runSteps_succ_of_next k hstep ▸ h⟩
  | fault r => rw [runSteps, hstep] at h; cases h
  | refused r => rw [runSteps, hstep] at h; cases h

/-- A run of `k` steps takes the first `k` events of the input. -/
theorem runSteps_eventsGuardViews {k : Nat} {s t : State} (h : runSteps k s = .next t) :
    EventsGuardViews (s.input.take k) s t := by
  induction k generalizing s with
  | zero => cases h; exact .nil _
  | succ k ih =>
    obtain ⟨e, rest, u, hinput, hstep, hrun⟩ := runSteps_succ_inv h
    obtain ⟨hrest, hfirst⟩ := step_eventsGuardViews hinput hstep
    rw [hinput, List.take_succ_cons, ← hrest]
    exact hfirst.append (ih hrun)

/-- Settles O23: the view compares `EPOCH` and the count of resets; commands and illegal words leave
the count alone and `EPOCH` guards the buffer through them, and a reset raises the count for good. -/
theorem borrowedViewReadsTheBorrowedBytes : Obligations.BorrowedViewReadsTheBorrowedBytes := by
  refine ⟨fun cmds s t i hinv h => ⟨fun hepoch hlen => ?_, State.readView_of_epoch_ne i⟩,
    fun k s t i hinv h => ?_⟩
  · have hguards : EpochGuardsOutput s t := sameEpochSameOutput cmds s t h
    exact hguards.readView hinv (execAll_resets h) hepoch hlen
  · obtain ⟨hcount, hguards⟩ := runSteps_eventsGuardViews h
    refine ⟨fun hreset => State.readView_of_resets_ne i ?_, fun hreset hepoch hlen => ?_,
      State.readView_of_epoch_ne i⟩
    · have hpos := List.count_pos_iff.2 hreset
      omega
    · rw [List.count_eq_zero.2 hreset, Nat.add_zero] at hcount
      exact (hguards hreset).readView hinv hcount hepoch hlen

end Sys2Proof.Machine
end

section
/-! The system commands (44_system.md R210, R211). -/

namespace Sys2Proof.Machine

theorem nop_executes_iff (m : Mode) : legality .nop m = .executes ↔ m ≠ .fault :=
  executes_iff_ne_fault (by simp) (by simp [RaisesProtocolError]) m

theorem exec_nop {s : State} (h : s.mode ≠ .fault) : exec .nop s = .next (nopEffect s) :=
  exec_of_executes ((nop_executes_iff s.mode).2 h)

/-- Settles O24: `NOP` executes in every mode but `FAULT`, and its effect is the response alone. -/
theorem nopChangesNothing : Obligations.NopChangesNothing :=
  ⟨bareWord_of_noOperand rfl rfl fun imm => decode_append _ imm,
    stopsOutside_of_executes fun m h => Mode.mem_of_ne_fault ((nop_executes_iff m).1 h),
    fun _ => exec_nop⟩

theorem exec_clr {s : State} (h : s.mode = .fault ∨ s.mode = .idle) :
    exec .clr s = .next (clrEffect s) :=
  exec_of_executes (by rcases h with h | h <;> rw [h] <;> rfl)

/-- Settles O25: `CLR` executes in `FAULT` and `IDLE`, and its effect, `State.leaveFault` with the
response, writes neither `LEN`, `OUT` nor `EPOCH`. -/
theorem clrLeavesFaultAndKeepsTheBuffer : Obligations.ClrLeavesFaultAndKeepsTheBuffer :=
  ⟨bareWord_of_noOperand rfl rfl fun imm => decode_append _ imm,
    stopsOutside_of_executes fun m h =>
      have ⟨_, _, _, _, hclr⟩ := mode_of_executes m
      List.mem_pair.2 (hclr h),
    fun _ => exec_clr⟩

end Sys2Proof.Machine
end

section
/-! The faults (60_exceptions.md R231, R232, R238): who raises which, and what a fault writes. -/

namespace Sys2Proof.Machine

/-- An effect that answers with a fault has raised it, with the command's own word. -/
theorem EffectIs.eq_raise {i : Instr} {s t : State} {x : ErrCode} (h : EffectIs i s t)
    (hfault : t.resp = some (.fault x)) : t = s.raise x (encode i) := by
  cases h with
  | invalidSymbol | illFormed | outOfMemory => cases hfault; rfl
  | answered _ hok => simp [hok] at hfault

theorem exec_eq_raise {i : Instr} {s t : State} {x : ErrCode} (h : exec i s = .next t)
    (hfault : t.resp = some (.fault x)) : t = s.raise x (encode i) := by
  rcases exec_inv h with ⟨-, rfl⟩ | ⟨-, rfl⟩ | ⟨-, rfl⟩
  · exact (effectOf_effectIs i s).eq_raise hfault
  · cases hfault; rfl
  · cases hfault

theorem State.illegalWord_eq_raise {w : CmdWord} {s : State} {x : ErrCode}
    (hfault : (s.illegalWord w).resp = some (.fault x)) : s.illegalWord w = s.raise x w := by
  rcases s.illegalWord_eq w with ⟨-, h⟩ | ⟨-, h⟩ <;> rw [h] at hfault ⊢ <;> cases hfault
  rfl

/-- Settles O10: an illegal word and a command both fault by `State.raise`, a legal word being that
of its command. -/
theorem everyFaultIsPrecise : Obligations.EveryFaultIsPrecise := by
  intro w s t x h hfault
  refine congrArg Host.Outcome.next (?_ : t = s.raise x w)
  cases hdecode : decode w with
  | illegal why =>
    rw [accept_of_illegal hdecode] at h
    cases h
    exact State.illegalWord_eq_raise hfault
  | legal i =>
    obtain ⟨rfl, -⟩ := encode_of_decode hdecode
    rw [accept_of_legal hdecode] at h
    exact exec_eq_raise h hfault

/-- A command whose fault is not `ProtocolError` has passed the gate: the fault is its effect's. -/
theorem exec_executes_of_fault {i : Instr} {s t : State} {x : ErrCode} (h : exec i s = .next t)
    (hfault : t.resp = some (.fault x)) (hx : x ≠ .protocolError) :
    legality i s.mode = .executes ∧ t = effectOf i s := by
  rcases exec_inv h with hexec | ⟨-, rfl⟩ | ⟨-, rfl⟩
  · exact hexec
  · cases hfault; exact absurd rfl hx
  · cases hfault

/-- Line 4 of 30_encoding.md R89 is the only one to raise `InvalidSymbol`. -/
theorem EffectIs.miss_of_invalidSymbol {i : Instr} {s t : State} (h : EffectIs i s t)
    (hfault : t.resp = some (.fault .invalidSymbol)) :
    ∃ c, i = .decSym c ∧ valueOf s.cfg c = none := by
  cases h with
  | invalidSymbol hcmd hmiss => exact ⟨_, hcmd, hmiss⟩
  | illFormed | outOfMemory => cases hfault
  | answered _ hok => simp [hok] at hfault

/-- Settles O11: only line 4 of 30_encoding.md R89 raises `InvalidSymbol`, and it comes before the
command asks which half the symbol is. -/
theorem invalidSymbolExactlyOnAMiss : Obligations.InvalidSymbolExactlyOnAMiss := by
  intro i s t h
  constructor
  · intro hfault
    obtain ⟨hlegal, rfl⟩ := exec_executes_of_fault h hfault (by decide)
    obtain ⟨c, rfl, hmiss⟩ := (effectOf_effectIs i s).miss_of_invalidSymbol hfault
    exact ⟨mode_of_decSym_executes hlegal, c, rfl, hmiss⟩
  · rintro ⟨hmode, c, rfl, hmiss⟩
    rw [exec_decSym_of_miss hmode hmiss] at h
    cases h
    rfl

/-- Line 5 of 30_encoding.md R89 is the only one to raise `OutOfMemory`. -/
theorem EffectIs.full_of_outOfMemory {i : Instr} {s t : State} (h : EffectIs i s t)
    (hfault : t.resp = some (.fault .outOfMemory)) : s.hasRoom (s.appendCount i) = false := by
  cases h with
  | outOfMemory hroom => exact hroom
  | invalidSymbol | illFormed => cases hfault
  | answered _ hok => simp [hok] at hfault

theorem State.hasRoom_eq_false_iff (s : State) (k : Nat) :
    s.hasRoom k = false ↔ 1 ≤ k ∧ s.cfg.fits (s.len + k) = false := by
  simp [State.hasRoom, Nat.one_le_iff_ne_zero]

/-- The one ill-formed term appends nothing (log entry 13). -/
theorem wellFormed_of_appendCount_pos {i : Instr} {s : State} (h : 1 ≤ s.appendCount i) :
    i.wellFormed = true := by
  cases i with
  | tabSym v => cases h
  | nop | encStart | encByte _ | encEnd | decStart | decSym _ | decEnd | outReset | tabVal _ | clr =>
    rfl

/-- Settles O12: only line 5 of 30_encoding.md R89 raises `OutOfMemory`, after line 4 has let the
symbol pass (60_exceptions.md R237). -/
theorem outOfMemoryExactlyWhenTheAppendDoesNotFit :
    Obligations.OutOfMemoryExactlyWhenTheAppendDoesNotFit := by
  intro i s t h
  rw [← State.hasRoom_eq_false_iff]
  constructor
  · intro hfault
    obtain ⟨hlegal, rfl⟩ := exec_executes_of_fault h hfault (by decide)
    refine ⟨hlegal, ?_, (effectOf_effectIs i s).full_of_outOfMemory hfault⟩
    rintro c rfl hmiss
    rw [effectOf, decSymEffect_of_miss hmiss] at hfault
    cases hfault
  · rintro ⟨hlegal, hhit, hfull⟩
    have hwf := wellFormed_of_appendCount_pos ((s.hasRoom_eq_false_iff _).1 hfull).1
    obtain ⟨hraise, -⟩ := (effectOf_effectIs i s).of_wellFormed_of_hit hwf hhit
    rw [exec_of_executes hlegal, hraise hfull] at h
    cases h
    rfl

end Sys2Proof.Machine
end

section
/-! Mode `FAULT` (60_exceptions.md R235, R240, R242): what keeps it and what leaves it. -/

namespace Sys2Proof.Machine

theorem step_of_fault {s : State} {w : CmdWord} {rest : List HostEvent} (hfault : s.mode = .fault)
    (hw : w ≠ 0xA00) (hinput : s.input = .command w :: rest) :
    step s = .next (s.take rest).refuse := by
  rw [step_command hinput]
  exact accept_of_fault hfault hw

/-- Settles O13: each word is refused, and a refusal leaves the mode and the latched `ERR` for the
next. -/
theorem firstFaultIsKeptUntilClr : Obligations.FirstFaultIsKeptUntilClr := by
  intro words s hfault hwords hinput
  refine ⟨_, ?_, rfl⟩
  induction words generalizing s with
  | nil =>
    have hempty : s.input = [] := hinput
    rw [← hempty]
    rfl
  | cons w rest ih =>
    obtain ⟨hw, hrest⟩ := List.forall_mem_cons.1 hwords
    have hrefused := step_of_fault hfault hw hinput
    rw [List.length_cons, runSteps_succ_of_next _ hrefused, ih (s := (s.take _).refuse) hfault hrest rfl]
    simp [State.refuse, State.take, Nat.add_assoc, Nat.add_comm 1]

/-- Settles O14: in mode `FAULT` a word other than that of `CLR` is refused, which keeps the mode. -/
theorem onlyClrAndResetLeaveFault : Obligations.OnlyClrAndResetLeaveFault := by
  intro s t hfault h hleft
  match hinput : s.input with
  | [] => rw [step_nil hinput] at h; cases h
  | .reset :: rest => exact .inl ⟨rest, rfl⟩
  | .command w :: rest =>
    by_cases hw : w = 0xA00
    · subst hw
      rw [step_command hinput, accept_of_legal rfl, exec_clr (s := s.take rest) (.inl hfault)] at h
      cases h
      exact .inr ⟨rest, rfl, rfl⟩
    · rw [step_of_fault hfault hw hinput] at h
      cases h
      exact absurd hfault hleft

end Sys2Proof.Machine
end

section
/-! Several instances (60_exceptions.md R250). -/

namespace Sys2Proof.Machine

theorem Platform.stepAt_getElem? (p : Platform) (k j : Nat) :
    (p.stepAt k)[j]? = (p[j]?).map (stepsAlone ([k].count j)) := by
  rw [Platform.stepAt, List.getElem?_modify]
  by_cases h : k = j
  · subst h
    simp [stepsAlone]
  · simp [h, stepsAlone]

theorem stepsAlone_add (k m : Nat) (s : State) :
    stepsAlone (k + m) s = stepsAlone m (stepsAlone k s) := by
  induction k generalizing s with
  | zero => rw [Nat.zero_add]; rfl
  | succ k ih => rw [Nat.succ_add]; exact ih (stepOrWait s)

/-- Settles O59: a step of the platform is a step of the instance it names and of no other. -/
theorem instancesRunAsIfAlone : Obligations.InstancesRunAsIfAlone := by
  intro schedule p j
  induction schedule generalizing p with
  | nil => cases h : p[j]? <;> simp [Platform.run, h, stepsAlone]
  | cons k rest ih =>
    have hcount : (k :: rest).count j = [k].count j + rest.count j := List.count_append (l₁ := [k])
    rw [Platform.run, ih, Platform.stepAt_getElem?, Option.map_map, hcount]
    exact congrArg (fun f => p[j]?.map f) (funext fun s => (stepsAlone_add _ _ s).symm)

end Sys2Proof.Machine
end

section
/-! The reset event (70_reset_and_hazards.md R270, 10_state.md R37). -/

namespace Sys2Proof.Machine

theorem step_reset {s : State} {rest : List HostEvent} (h : s.input = .reset :: rest) :
    step s = .next (s.take rest).hardReset := by
  rw [step_cons h, handle]

/-- At or beyond `LEN` the host reads the free value (20_memory.md R62). -/
theorem State.hostOut_of_len_le {s : State} {i : Nat} (h : s.len ≤ i) :
    s.hostOut i = Config.unspecifiedOut s.tick i := by
  simp [State.hostOut, Nat.not_lt.2 h]

/-- A reset raises the count of resets above that of every view borrowed so far (log entry 14). -/
theorem State.readView_hardReset_of_resets_le {s u : State} (i : Nat) (h : u.resets ≤ s.resets) :
    s.hardReset.readView u.borrow i = .refused :=
  State.readView_of_resets_ne i (Nat.ne_of_gt (Nat.lt_succ_of_le h))

/-- Settles O16: the next state is `State.hardReset` of the taken state; its `LEN` is 0, so every
index reads the free value, and its count of resets is above that of every earlier view. -/
theorem resetEventRestoresTheResetValues : Obligations.ResetEventRestoresTheResetValues := by
  intro s rest hinput
  refine ⟨(s.take rest).hardReset, step_reset hinput, rfl, rfl, rfl, rfl, rfl, rfl, rfl, rfl, rfl,
    rfl, fun i => ⟨?_, fun u hu => ?_⟩⟩
  · exact State.hostOut_of_len_le (Nat.zero_le i)
  · exact State.readView_hardReset_of_resets_le i hu

end Sys2Proof.Machine
end

section
/-! The invariant of reachable states (10_state.md R36): each operation the events share keeps it, and
so does each command. -/

namespace Sys2Proof.Machine

theorem State.Inv.take {s : State} (h : s.Inv) (rest : List HostEvent) : (s.take rest).Inv :=
  { h with }

theorem State.Inv.respond {s : State} (h : s.Inv) (r : Response) : (s.respond r).Inv := { h with }

theorem State.Inv.refuse {s : State} (h : s.Inv) : s.refuse.Inv := { h with }

/-- A fault moves to `FAULT`, where the items of the other modes ask nothing of the frozen
registers. -/
theorem State.Inv.raise {s : State} (h : s.Inv) {x : ErrCode} (hx : x ≠ .none) (w : CmdWord) :
    (s.raise x w).Inv :=
  { h with
    idleClear    := fun hmode => Mode.noConfusion hmode
    encNoHalf    := fun hmode => Mode.noConfusion hmode
    decCount     := fun hmode => Mode.noConfusion hmode
    errMode      := iff_of_false hx (not_not_intro rfl)
    errinfoClear := fun hnone => absurd hnone hx }

theorem State.Inv.illegalWord {s : State} (h : s.Inv) (w : CmdWord) : (s.illegalWord w).Inv := by
  rcases s.illegalWord_eq w with ⟨-, heq⟩ | ⟨-, heq⟩
  · exact heq ▸ h.raise (by decide) w
  · exact heq ▸ h.refuse

theorem State.Inv.fits_zero {s : State} (h : s.Inv) : s.cfg.fits 0 = true :=
  Config.fits_mono (Nat.zero_le _) h.lenFits

theorem outResetEffect_keepsInv {s : State} (h : s.Inv) : (outResetEffect s).Inv :=
  { h with
    lenFits  := h.fits_zero
    outHolds := fun i hi => absurd hi (Nat.not_lt_zero i) }

/-- Reset is the reset state but for the parameters, which no reset changes (10_state.md R20). -/
theorem State.Inv.hardReset {s : State} (h : s.Inv) : s.hardReset.Inv :=
  { resetStateMeetsTheInvariant with
    lenFits    := h.fits_zero
    outInSpace := fun _ hread => Bool.noConfusion hread
    alphabetWf := h.alphabetWf }

/-- One byte appended, with room for it: the address `LEN` holds a byte and is in the space. -/
theorem State.Inv.appendByte {s : State} (h : s.Inv) (b : Byte)
    (hroom : s.cfg.fits (s.len + 1) = true) : (s.appendByte b).Inv :=
  { h with
    lenFits      := hroom
    outCanonical := Memory.wf_write s.len b h.outCanonical
    outHolds := fun i hi => by
      rw [State.appendByte_out]
      by_cases hlast : i = s.len
      · rw [hlast, Memory.read_write_same]
        rfl
      · rw [Memory.read_write_other _ _ hlast]
        exact h.outHolds i (Nat.lt_of_le_of_ne (Nat.le_of_lt_succ hi) hlast)
    outInSpace := fun i hread => by
      by_cases hlast : i = s.len
      · exact hlast ▸ hroom
      · rw [State.appendByte_out, Memory.read_write_other _ _ hlast] at hread
        exact h.outInSpace i hread }

theorem State.Inv.appendAll {s : State} (h : s.Inv) {bs : List Byte}
    (hroom : s.cfg.fits (s.len + bs.length) = true) : (s.appendAll bs).Inv := by
  induction bs generalizing s with
  | nil => exact h
  | cons b rest ih =>
    rw [List.length_cons] at hroom
    refine ih (h.appendByte b (Config.fits_mono (by omega) hroom)) ?_
    rwa [State.appendByte_len, State.appendByte_cfg, Nat.add_right_comm]

/-- A command that may append keeps the invariant when its register updates do wherever the appends
leave `OUT`, `LEN` and `EPOCH`. -/
theorem emit_keepsInv {i : Instr} {bytes : List Byte} {update : State → State} {s : State}
    (h : s.Inv)
    (hupdate : ∀ out len epoch, State.Inv { s with out := out, len := len, epoch := epoch } →
      (update { s with out := out, len := len, epoch := epoch }).Inv) :
    (emit i bytes update s).Inv := by
  rcases emit_eq i bytes update s with ⟨hroom, heq⟩ | ⟨-, heq⟩
  · rw [State.hasRoom_eq_fits h.lenFits] at hroom
    have happended := h.appendAll hroom
    rw [State.appendAll_eq] at happended
    rw [heq, State.appendAll_eq]
    exact (hupdate _ _ _ happended).respond _
  · exact heq ▸ h.raise (by decide) _

/-- A cleared engine meets the items of every mode (10_state.md R36 items 1 to 5). -/
theorem State.Inv.clearEngine {s : State} (h : s.Inv) {m : Mode} {e : ErrCode} {w : CmdWord}
    (hmode : e = .none ↔ m ≠ .fault) (hinfo : e = .none → w = 0) :
    State.Inv { s.clearEngine with mode := m, err := e, errinfo := w } :=
  { h with
    accFits      := Nat.one_pos
    countBound   := Nat.zero_le 13
    halfBound    := Nat.zero_le 90
    halfClear    := fun _ => rfl
    idleClear    := fun _ => ⟨rfl, rfl, rfl, rfl⟩
    encNoHalf    := fun _ => ⟨rfl, rfl⟩
    decCount     := fun _ => Nat.zero_le 7
    errMode      := hmode
    errinfoClear := hinfo }

/-- A call starts or ends with a cleared engine. -/
theorem State.Inv.clearEngine_of_ne_fault {s : State} (h : s.Inv) {m : Mode}
    (hs : s.mode ≠ .fault) (hm : m ≠ .fault) : State.Inv { s.clearEngine with mode := m } :=
  h.clearEngine (iff_of_true (h.errMode.2 hs) hm) h.errinfoClear

/-- The bits an encoder keeps (10_state.md R36 item 1). -/
theorem State.Inv.keepEncBits {s : State} (h : s.Inv) (hmode : s.mode = .enc) {acc : AccWord}
    {n : CountWord} (hbits : HeldBits acc n) : State.Inv { s with acc := acc, n := n } :=
  { h with
    accFits    := hbits.fits
    countBound := hbits.bound
    idleClear  := fun hidle => absurd (hmode.symm.trans hidle) (by decide)
    decCount   := fun hdec => absurd (hmode.symm.trans hdec) (by decide) }

/-- The bits a decoder keeps of a completed pair (10_state.md R36 items 1 and 5). -/
theorem State.Inv.keepDecBits {s : State} (h : s.Inv) (hmode : s.mode = .dec) {acc : AccWord}
    {n : CountWord} (hbits : DecHeldBits acc n) :
    State.Inv { s with acc := acc, n := n, have1 := false, v1 := 0 } :=
  { h with
    accFits    := hbits.fits
    countBound := hbits.bound.trans (by decide)
    halfBound  := Nat.zero_le 90
    halfClear  := fun _ => rfl
    idleClear  := fun hidle => absurd (hmode.symm.trans hidle) (by decide)
    encNoHalf  := fun _ => ⟨rfl, rfl⟩
    decCount   := fun _ => hbits.bound }

/-- The half a decoder holds (10_state.md R36 item 2). -/
theorem State.Inv.holdHalf {s : State} (h : s.Inv) (hmode : s.mode = .dec) {d : Nat} (hd : d < 91) :
    (s.holdHalf d).Inv :=
  { h with
    halfBound := (Nat.mod_le d (2 ^ 7)).trans (Nat.le_of_lt_succ hd)
    halfClear := fun hnone => Bool.noConfusion hnone
    idleClear := fun hidle => absurd (hmode.symm.trans hidle) (by decide)
    encNoHalf := fun henc => absurd (hmode.symm.trans henc) (by decide) }

theorem State.Inv.decHeldBits {s : State} (h : s.Inv) (hmode : s.mode = .dec) :
    DecHeldBits s.acc s.n :=
  ⟨h.accFits, h.decCount hmode⟩

theorem State.Inv.completePair {s : State} (h : s.Inv) (hmode : s.mode = .dec) (c : Byte) {d : Nat}
    (hd : d < 91) : (s.completePair c d).Inv := by
  have hheld := h.decHeldBits hmode
  have hhalf := h.halfBound
  have hgroup : s.v1.toNat + d * 91 ≤ 8280 := by omega
  have hbits := (decFeed_pairFeeds hheld hgroup).decHeldBits hheld hgroup
  rw [State.completePair]
  exact emit_keepsInv h fun _ _ _ hu => hu.keepDecBits hmode hbits

theorem decSymEffect_keepsInv {s : State} (h : s.Inv) (hmode : s.mode = .dec) (c : Byte) :
    (decSymEffect c s).Inv := by
  cases hvalue : valueOf s.cfg c with
  | none => exact decSymEffect_of_miss hvalue ▸ h.raise (by decide) _
  | some d =>
    cases hhalf : s.have1 with
    | false => exact decSymEffect_of_first hvalue hhalf ▸ h.holdHalf hmode (valueOf_lt hvalue)
    | true => exact decSymEffect_of_second hvalue hhalf ▸ h.completePair hmode c (valueOf_lt hvalue)

theorem encByteEffect_keepsInv {s : State} (h : s.Inv) (hmode : s.mode = .enc) (b : Byte) :
    (encByteEffect b s).Inv := by
  have hbits := (encFeed_feeds h.heldBits b).heldBits h.heldBits
  rw [encByteEffect]
  exact emit_keepsInv h fun _ _ _ hu => hu.keepEncBits hmode hbits

/-- In mode `ENC` no half is held, so that clearing the accumulator clears the engine. -/
theorem encEndEffect_keepsInv {s : State} (h : s.Inv) (hmode : s.mode = .enc) :
    (encEndEffect s).Inv := by
  obtain ⟨hhave1, hv1⟩ := h.encNoHalf hmode
  refine emit_keepsInv h fun _ _ _ hu => ?_
  have hclear := hu.clearEngine_of_ne_fault (m := .idle) (by simp [hmode]) (by decide)
  simpa only [State.clearEngine, hhave1, hv1] using hclear

theorem decEndEffect_keepsInv {s : State} (h : s.Inv) (hmode : s.mode = .dec) :
    (decEndEffect s).Inv :=
  emit_keepsInv h fun _ _ _ hu => hu.clearEngine_of_ne_fault (by simp [hmode]) (by decide)

theorem tabSymEffect_keepsInv {s : State} (h : s.Inv) (v : Byte) : (tabSymEffect v s).Inv := by
  unfold tabSymEffect
  split
  · exact h.respond _
  · exact h.raise (by decide) _

/-- The effect of every command, in a mode it executes in. -/
theorem effectOf_keepsInv {i : Instr} {s : State} (h : s.Inv)
    (hlegal : legality i s.mode = .executes) : (effectOf i s).Inv := by
  obtain ⟨hencStart, hencEnd, hdecStart, hdecEnd, -⟩ := mode_of_executes s.mode
  cases i with
  | nop | tabVal _ => exact h.respond _
  | encStart =>
    have hidle := hencStart hlegal
    exact (h.clearEngine_of_ne_fault (m := .enc) (by simp [hidle]) (by decide)).respond _
  | encByte b => exact encByteEffect_keepsInv h (mode_of_encByte_executes hlegal) b
  | encEnd => exact encEndEffect_keepsInv h (hencEnd hlegal)
  | decStart =>
    have hidle := hdecStart hlegal
    exact (h.clearEngine_of_ne_fault (m := .dec) (by simp [hidle]) (by decide)).respond _
  | decSym c => exact decSymEffect_keepsInv h (mode_of_decSym_executes hlegal) c
  | decEnd => exact decEndEffect_keepsInv h (hdecEnd hlegal)
  | outReset => exact outResetEffect_keepsInv h
  | tabSym v => exact tabSymEffect_keepsInv h v
  | clr => exact (h.clearEngine (m := .idle) (by decide) fun _ => rfl).respond _

theorem exec_keepsInv {i : Instr} {s t : State} (h : s.Inv) (hexec : exec i s = .next t) :
    t.Inv := by
  rcases exec_inv hexec with ⟨hlegal, rfl⟩ | ⟨-, rfl⟩ | ⟨-, rfl⟩
  · exact effectOf_keepsInv h hlegal
  · exact h.raise (by decide) _
  · exact h.refuse

theorem accept_keepsInv {w : CmdWord} {s t : State} (h : s.Inv) (haccept : accept w s = .next t) :
    t.Inv := by
  cases hdecode : decode w with
  | illegal why =>
    rw [accept_of_illegal hdecode] at haccept
    cases haccept
    exact h.illegalWord w
  | legal i =>
    rw [accept_of_legal hdecode] at haccept
    exact exec_keepsInv h haccept

/-- Settles O18: the step takes an event, which is a reset or a word, legal or not; a legal word is a
command, and its effect keeps the invariant in the modes it executes in. -/
theorem everyStepKeepsTheInvariant : Obligations.EveryStepKeepsTheInvariant := by
  intro s t h hstep
  match hinput : s.input with
  | [] => rw [step_nil hinput] at hstep; cases hstep
  | .reset :: rest =>
    rw [step_reset hinput] at hstep
    cases hstep
    exact (h.take rest).hardReset
  | .command w :: rest =>
    rw [step_command hinput] at hstep
    exact accept_keepsInv (h.take rest) hstep

end Sys2Proof.Machine
end

section
/-! A reused output buffer (43_output_buffer.md R196). -/

namespace Sys2Proof.Machine

@[simp] theorem State.ownedCopy_length (s : State) : s.ownedCopy.length = s.len := by
  simp [State.ownedCopy]

theorem State.len_eq_of_ownedCopy {s t : State} (h : s.ownedCopy = t.ownedCopy) : s.len = t.len := by
  rw [← s.ownedCopy_length, h, t.ownedCopy_length]

/-- The reset state with the parameters of a state that has the invariant. -/
theorem State.Inv.freshBlock {s : State} (h : s.Inv) : State.Inv { State.reset with cfg := s.cfg } :=
  { h.hardReset with }

/-- Settles O32: `OUT.RESET` leaves an empty buffer, and so does reset; on either side the buffer then
holds what the call appends. -/
theorem reusedBufferGivesTheFreshResult : Obligations.ReusedBufferGivesTheFreshResult := by
  refine ⟨fun s x hinv hidle hroom => ?_, fun s codes ys hinv hidle hdecode hroom => ?_⟩
  · obtain ⟨t, hrun, hmode, -, hcopy⟩ := execAll_freshEncodeCall x hidle hroom
    obtain ⟨u, hrun', hmode', -, -, -, hcopy'⟩ := encodeCallAppendsItsEncoding.1 _ x hinv.freshBlock
      rfl ((Nat.zero_add _).symm ▸ hroom)
    have hsame : t.ownedCopy = u.ownedCopy := hcopy.trans hcopy'.symm
    exact ⟨t, u, hrun, hrun', hmode, hmode', State.len_eq_of_ownedCopy hsame, hsame⟩
  · obtain ⟨t, hrun, hmode, -, hcopy⟩ := execAll_freshDecodeCall hidle hdecode hroom
    obtain ⟨u, hrun', hmode', -, hcopy'⟩ := decodeCallAppendsItsDecoding.1 _ codes ys
      hinv.freshBlock rfl hdecode ((Nat.zero_add _).symm ▸ hroom)
    have hsame : t.ownedCopy = u.ownedCopy := hcopy.trans hcopy'.symm
    exact ⟨t, u, hrun, hrun', hmode, hmode', State.len_eq_of_ownedCopy hsame, hsame⟩

end Sys2Proof.Machine
end

section
/-! The values the encoder looks up (41_encoder.md R141). -/

namespace Sys2Proof.Machine

/-- Settles O43: a group has two digits in base 91, and the bits held are at most 13 before a byte
goes in above them. -/
theorem symbolLookupsStayInTheirDomain : Obligations.SymbolLookupsStayInTheirDomain := by
  intro s b hinv
  have hheld := hinv.heldBits
  have hbound := hheld.bound
  refine ⟨encGroup_value_le, (encFeed_feeds hheld b).vals_le, (flushVals_flushes hheld).vals_le hheld,
    ?_, by omega⟩
  have hinsert := insert_byte_toNat s.acc s.n.toNat b hheld.fits hbound
  rw [zext24] at hinsert
  rw [hinsert]
  exact add_mul_two_pow_lt hheld.fits b.isLt

end Sys2Proof.Machine
end

section
/-! The hits of the default table (40_alphabet_table.md R114). -/

namespace Sys2Proof.Machine

theorem code_of_mem_defaultAlphabet : ∀ x ∈ defaultAlphabet.toList,
    0x21 ≤ x.toNat ∧ x.toNat ≤ 0x7E ∧ x ≠ 0x27 ∧ x ≠ 0x2D ∧ x ≠ 0x5C := by
  decide

theorem mem_defaultAlphabet_of_code : ∀ k < 0x7F,
    0x21 ≤ k ∧ k ≠ 0x27 ∧ k ≠ 0x2D ∧ k ≠ 0x5C → BitVec.ofNat 8 k ∈ defaultAlphabet.toList := by
  decide

/-- The default table holds the codes R114 names and no other. -/
theorem mem_defaultAlphabet_iff (x : Byte) : x ∈ defaultAlphabet.toList ↔
    0x21 ≤ x.toNat ∧ x.toNat ≤ 0x7E ∧ x ≠ 0x27 ∧ x ≠ 0x2D ∧ x ≠ 0x5C := by
  refine ⟨code_of_mem_defaultAlphabet x, fun ⟨hlow, hhigh, h27, h2D, h5C⟩ => ?_⟩
  have hmem := mem_defaultAlphabet_of_code x.toNat (Nat.lt_succ_of_le hhigh)
    ⟨hlow, BitVec.toNat_ne.1 h27, BitVec.toNat_ne.1 h2D, BitVec.toNat_ne.1 h5C⟩
  rwa [BitVec.ofNat_toNat, BitVec.setWidth_eq] at hmem

/-- Settles O34: the reset state has the default table, and the codes that hit are its entries. -/
theorem defaultTableHits : Obligations.DefaultTableHits :=
  ⟨resetStateMeetsTheInvariant.alphabetWf, fun x =>
    (valueOf_isSome_iff Config.default x).trans (mem_defaultAlphabet_iff x)⟩

end Sys2Proof.Machine
end
